-- ==== Sys2Proof/Word.lean ====
section
/-! DEFINITION. The value types of the core: bytes, 32-bit words and 64-bit counters (rules R7, R8, R9 of
`spec/00_scope.md`). Every value is unsigned; addition on each type wraps at its width (R9, R65). -/

namespace Sys2Proof

/-- A byte: 8 bits, unsigned (R8). -/
abbrev Byte := BitVec 8

/-- A 32-bit unsigned word (R6 `WORD`, R9). -/
abbrev Word := BitVec 32

/-- A 64-bit unsigned value: the length counter and the stream position (R6 `LENW`, `SPOSW`). -/
abbrev DWord := BitVec 64

/-- `zeros(n)` of R8: `n` bytes of value 0x00. -/
def zeros (n : Nat) : List Byte := List.replicate n 0

/-- A vector of `n` bytes holding the first `n` elements of a byte sequence, in order.
The rules only meet sequences of at least `n` bytes here; a position past the end of a shorter one would hold 0x00. -/
def byteVec (n : Nat) (bs : List Byte) : Vector Byte n := Vector.ofFn fun i => bs.getD i 0

end Sys2Proof
end

