-- ==== Sys2Proof/Config.lean ====
section
/-! DEFINITION. The implementation parameters the spec fixes (rule R6 of `spec/00_scope.md`): each has one value, and
"No parameter is left open to the model", so this file holds no free value. The widths WORD, NH, LENW, PLW, RAW, RDW and
SPOSW are the types of `Word.lean` and of `Machine/State.lean`. -/

namespace Sys2Proof.Config

/-- `BLOCK`: block length in bytes (R6). -/
def block : Nat := 64

/-- `DIGEST`: digest and tag length in bytes (R6). -/
def digest : Nat := 32

/-- `NENG`: number of Digest Engines (R6). -/
def neng : Nat := 2

/-- Command interface version (R2, R31). -/
def interfaceVersion : Nat := 1

/-- `LMAX`: the largest byte count one engine lifecycle may absorb, 2^61 - 1 (R6, R74). -/
def lmax : Nat := 2 ^ 61 - 1

/-- `KEYPAD`: length of a normalized HMAC key in bytes (R6). -/
def keypad : Nat := 64

/-- `IPADC`: the inner pad byte (R6). -/
def ipadc : Byte := 0x36

/-- `OPADC`: the outer pad byte (R6). -/
def opadc : Byte := 0x5c

/-- A payload length word has 32 bits, so a payload holds fewer than this many bytes (R6 `PLW`, R47). -/
def payloadBound : Nat := 2 ^ 32

end Sys2Proof.Config
end

