-- ==== Sys2Proof/Syntax.lean ====
section
/-! DEFINITION. The eight commands of the core (rule R50 of `spec/30_encoding.md`), one constructor per row of
`spec/opcode_table.json`, with their operands: an engine select and byte payloads (R47, R48). -/

namespace Sys2Proof

/-- The two Digest Engines (R18): E0, the HMAC inner engine, and E1, the outer. -/
inductive EngineId where
  | e0
  | e1
  deriving DecidableEq, Repr

/-- The commands of the core (R50). -/
inductive Instr where
  /-- ERST e: engine reset (R72). -/
  | erst (e : EngineId)
  /-- EABS e, data: engine absorb (R73). -/
  | eabs (e : EngineId) (data : List Byte)
  /-- EFIN e: engine finalize (R75). -/
  | efin (e : EngineId)
  /-- HKEY key: derive the HMAC pads from a key (R77). -/
  | hkey (key : List Byte)
  /-- HSTART: open an HMAC session (R78). -/
  | hstart
  /-- HDATA frag: absorb one data fragment (R79). -/
  | hdata (frag : List Byte)
  /-- HFIN: close the session and produce the tag (R80). -/
  | hfin
  /-- EQ A, B: constant-time comparison of two byte sequences (R83). -/
  | eqCheck (a b : List Byte)
  deriving DecidableEq, Repr

end Sys2Proof
end

