-- ==== Sys2Proof/WellFormed.lean ====
section
/-! DEFINITION. Which commands the encoding can express: every payload fits its 32-bit length word (rules R47, R73, R77,
R79, R83: `0 <= L <= 2^32 - 1`). Engine selects are well formed by their type. -/

namespace Sys2Proof

/-- A payload of at most 2^32 - 1 bytes (R47). -/
def payloadWf (bs : List Byte) : Bool := decide (bs.length < Config.payloadBound)

/-- A command the encoding can express: each of its payloads fits its length word (R47). -/
def Instr.wf : Instr → Bool
  | .erst _ => true
  | .eabs _ data => payloadWf data
  | .efin _ => true
  | .hkey key => payloadWf key
  | .hstart => true
  | .hdata frag => payloadWf frag
  | .hfin => true
  | .eqCheck a b => payloadWf a && payloadWf b

end Sys2Proof
end

