-- ==== Sys2Proof/Decode.lean ====
section
/-! DEFINITION. Byte order, the command decoder (rules R46 to R53 of `spec/30_encoding.md`), and the encoder written from
the same tables. The decoder is total on any bytes. It rejects an illegal opcode and a set reserved bit by name, in the
order of R53, and says by name when the bytes delivered so far are only part of a command (R34, R100). -/

namespace Sys2Proof

/-! ## Byte order (R10, R36, R37) -/

/-- `be32(b0, b1, b2, b3)` of R10: the word `b0*2^24 + b1*2^16 + b2*2^8 + b3`. -/
def be32 (b0 b1 b2 b3 : Byte) : Word := b0 ++ b1 ++ b2 ++ b3

/-- `bytes32(w)` of R10: the four bytes of a word, most significant first. -/
def bytes32 (w : Word) : List Byte :=
  [w.extractLsb' 24 8, w.extractLsb' 16 8, w.extractLsb' 8 8, w.extractLsb' 0 8]

/-- `bytes64(v)` of R10: the eight bytes of a 64-bit value, most significant first. -/
def bytes64 (v : DWord) : List Byte := bytes32 (v.extractLsb' 32 32) ++ bytes32 (v.extractLsb' 0 32)

/-! ## The header word (R46, R50) -/

/-- The eight defined opcodes (R50). -/
inductive Opcode where
  | erst | eabs | efin | hkey | hstart | hdata | hfin | eqCheck
  deriving DecidableEq, Repr

/-- The OPC value of each opcode (R50). -/
def Opcode.code : Opcode → Byte
  | .erst => 0x01
  | .eabs => 0x02
  | .efin => 0x03
  | .hkey => 0x10
  | .hstart => 0x11
  | .hdata => 0x12
  | .hfin => 0x13
  | .eqCheck => 0x20

/-- All eight opcodes, in the table's order. -/
def Opcode.all : List Opcode := [.erst, .eabs, .efin, .hkey, .hstart, .hdata, .hfin, .eqCheck]

/-- The opcode an OPC value names; none of the other 248 values names one (R51). -/
def Opcode.ofByte (b : Byte) : Option Opcode := Opcode.all.find? fun op => op.code == b

/-- The commands that take an engine select: ERST, EABS and EFIN (R46). -/
def Opcode.takesEngine : Opcode → Bool
  | .erst | .eabs | .efin => true
  | .hkey | .hstart | .hdata | .hfin | .eqCheck => false

/-- OPC, header bits [31:24] (R46). -/
def opcField (hdr : Word) : Byte := hdr.extractLsb' 24 8

/-- RSV1, header bits [23:17] (R46). -/
def rsv1Field (hdr : Word) : BitVec 7 := hdr.extractLsb' 17 7

/-- E, header bit [16] (R46). -/
def eField (hdr : Word) : BitVec 1 := hdr.extractLsb' 16 1

/-- RSV0, header bits [15:0] (R46). -/
def rsv0Field (hdr : Word) : BitVec 16 := hdr.extractLsb' 0 16

/-- The engine an E bit selects: 0 is E0, 1 is E1 (R46, R48). -/
def EngineId.ofBit (b : BitVec 1) : EngineId := if b = 0 then .e0 else .e1

/-- The E bit of an engine (R46). -/
def EngineId.bit : EngineId → BitVec 1
  | .e0 => 0
  | .e1 => 1

/-- A reserved header bit is 1: RSV1 or RSV0 nonzero, or E = 1 on a command other than ERST, EABS, EFIN (R51). -/
def reservedSet (op : Opcode) (hdr : Word) : Bool :=
  rsv1Field hdr != 0 || rsv0Field hdr != 0 || (!op.takesEngine && eField hdr != 0)

/-- Assemble a header word from its fields, the reserved ones zero (R46, R50). -/
def mkHeader (op : Opcode) (e : BitVec 1) : Word := op.code ++ (0 : BitVec 7) ++ e ++ (0 : BitVec 16)

/-- The match value and the mask of an opcode's header word, as R50 and `opcode_table.json` give them. -/
def Opcode.matchMask : Opcode → Word × Word
  | .erst => (0x01000000, 0xfffeffff)
  | .eabs => (0x02000000, 0xfffeffff)
  | .efin => (0x03000000, 0xfffeffff)
  | .hkey => (0x10000000, 0xffffffff)
  | .hstart => (0x11000000, 0xffffffff)
  | .hdata => (0x12000000, 0xffffffff)
  | .hfin => (0x13000000, 0xffffffff)
  | .eqCheck => (0x20000000, 0xffffffff)

/-! ## Reading the stream (R34, R47) -/

/-- `StreamRead(n)` of R34 on the bytes delivered so far: the next `n` bytes and what follows them, or nothing when
fewer have been delivered. -/
def streamRead (n : Nat) (bs : List Byte) : Option (List Byte × List Byte) :=
  if n ≤ bs.length then some (bs.take n, bs.drop n) else none

/-- A 32-bit big-endian field of the stream: a header word or a length word (R37). -/
def readWord : List Byte → Option (Word × List Byte)
  | b0 :: b1 :: b2 :: b3 :: rest => some (be32 b0 b1 b2 b3, rest)
  | _ => none

/-- A payload (R47): a length word `L`, then exactly `L` bytes. -/
def readPayload (bs : List Byte) : Option (List Byte × List Byte) :=
  (readWord bs).bind fun (len, rest) => streamRead len.toNat rest

/-! ## The decoder (R53) -/

/-- What the decoder says of the bytes delivered so far. -/
inductive Decoded where
  /-- A whole command, and the bytes after it. -/
  | command (i : Instr) (rest : List Byte)
  /-- A header whose OPC is none of the eight (R51, cause 1), found after its four bytes. -/
  | illegalOpcode (hdr : Word)
  /-- A header with a defined OPC and a reserved bit set (R51, cause 2), found after its four bytes. -/
  | reservedField (hdr : Word)
  /-- The bytes are a proper prefix of a command: the core waits for the rest (R34, R100). -/
  | incomplete
  deriving DecidableEq, Repr

/-- A command with one payload, once all of it has been delivered (R47). -/
def decodePayload (mk : List Byte → Instr) (bs : List Byte) : Decoded :=
  match readPayload bs with
  | some (data, rest) => .command (mk data) rest
  | none => .incomplete

/-- A command with two payloads, operand A first (R47). -/
def decodePayloads (mk : List Byte → List Byte → Instr) (bs : List Byte) : Decoded :=
  match readPayload bs with
  | some (a, rest) => decodePayload (mk a) rest
  | none => .incomplete

/-- The payloads of a command whose header has passed both header checks, with its engine operand `e = hdr[16]`
(R47, R48). -/
def decodeOperands (op : Opcode) (e : EngineId) (bs : List Byte) : Decoded :=
  match op with
  | .erst => .command (.erst e) bs
  | .eabs => decodePayload (Instr.eabs e) bs
  | .efin => .command (.efin e) bs
  | .hkey => decodePayload Instr.hkey bs
  | .hstart => .command .hstart bs
  | .hdata => decodePayload Instr.hdata bs
  | .hfin => .command .hfin bs
  | .eqCheck => decodePayloads Instr.eqCheck bs

/-- The decode order of R53: the opcode check, the reserved-bit checks, then the payloads. -/
def decode (bs : List Byte) : Decoded :=
  match readWord bs with
  | none => .incomplete
  | some (hdr, rest) =>
    match Opcode.ofByte (opcField hdr) with
    | none => .illegalOpcode hdr
    | some op =>
      if reservedSet op hdr then .reservedField hdr
      else decodeOperands op (EngineId.ofBit (eField hdr)) rest

/-! ## The encoder (R47, R50, R55) -/

/-- The opcode of a command (R50). -/
def Instr.opcode : Instr → Opcode
  | .erst _ => .erst
  | .eabs _ _ => .eabs
  | .efin _ => .efin
  | .hkey _ => .hkey
  | .hstart => .hstart
  | .hdata _ => .hdata
  | .hfin => .hfin
  | .eqCheck _ _ => .eqCheck

/-- The E bit of a command: its engine select, and 0 for the commands that have none (R46). -/
def Instr.engineBit : Instr → BitVec 1
  | .erst e => e.bit
  | .eabs e _ => e.bit
  | .efin e => e.bit
  | .hkey _ => 0
  | .hstart => 0
  | .hdata _ => 0
  | .hfin => 0
  | .eqCheck _ _ => 0

/-- The header word of a command (R50). -/
def Instr.header (i : Instr) : Word := mkHeader i.opcode i.engineBit

/-- The payloads of a command, in stream order (R47). -/
def Instr.payloads : Instr → List (List Byte)
  | .erst _ => []
  | .eabs _ data => [data]
  | .efin _ => []
  | .hkey key => [key]
  | .hstart => []
  | .hdata frag => [frag]
  | .hfin => []
  | .eqCheck a b => [a, b]

/-- A payload on the stream: its length word, most significant byte first, then its bytes (R47). -/
def encodePayload (bs : List Byte) : List Byte := bytes32 (BitVec.ofNat 32 bs.length) ++ bs

/-- The stream bytes of a command: its header word, most significant byte first, then its payloads (R46, R47). -/
def encode (i : Instr) : List Byte := bytes32 i.header ++ i.payloads.flatMap encodePayload

/-- Command length in bytes (R49): 4, `8 + L`, or `12 + LA + LB`. -/
def Instr.size : Instr → Nat
  | .erst _ => 4
  | .eabs _ data => 8 + data.length
  | .efin _ => 4
  | .hkey key => 8 + key.length
  | .hstart => 4
  | .hdata frag => 8 + frag.length
  | .hfin => 4
  | .eqCheck a b => 12 + a.length + b.length

/-! ## The opcode table's numbering -/

/-- The stream bytes of an instruction whose bits are `w`, bit 0 the least significant of the first 32-bit word (the
numbering of `spec/opcode_table.json`): each word most significant byte first (R37), the first word first, and every bit
at or above `nbits` zero. Twelve bytes hold a header and two length words; a nonzero second word is a payload length,
and that many zero payload bytes follow. -/
def tableStream (nbits w : Nat) : List Byte :=
  let v := w % 2 ^ nbits
  let word (k : Nat) : Word := BitVec.ofNat 32 (v >>> (32 * k))
  bytes32 (word 0) ++ bytes32 (word 1) ++ bytes32 (word 2) ++ zeros (word 1).toNat

/-- The instruction the decoder reads from an instruction of the opcode table whose bits are `w`. -/
def decodeTableWord (nbits w : Nat) : Option Instr :=
  match decode (tableStream nbits w) with
  | .command i _ => some i
  | .illegalOpcode _ => none
  | .reservedField _ => none
  | .incomplete => none

end Sys2Proof
end

