-- ==== Sys2Proof/Machine/Compression.lean ====
section
/-! DEFINITION. The Compression Core (rules R57 to R65 of `spec/40_compression.md`): a pure function of a Digest State and
one block. It is no command and writes no state (R57); how it is computed is outside the contract (R58), and
only its value counts. Word functions from R9 and R61, the constant tables from R59 and R60. -/

namespace Sys2Proof.Machine

/-- A Digest State: exactly eight 32-bit words (R23). -/
abbrev DigestState := Vector Word 8

/-- A block, or a block-sized buffer: 64 bytes (R6 `BLOCK`). -/
abbrev Block := Vector Byte 64

/-! ## Constants -/

/-- The round constants `K[0..31]` (R59). -/
def roundConstantsLow : List Word :=
  [0x428a2f98, 0x71374491, 0xb5c0fbcf, 0xe9b5dba5, 0x3956c25b, 0x59f111f1, 0x923f82a4, 0xab1c5ed5] ++
  [0xd807aa98, 0x12835b01, 0x243185be, 0x550c7dc3, 0x72be5d74, 0x80deb1fe, 0x9bdc06a7, 0xc19bf174] ++
  [0xe49b69c1, 0xefbe4786, 0x0fc19dc6, 0x240ca1cc, 0x2de92c6f, 0x4a7484aa, 0x5cb0a9dc, 0x76f988da] ++
  [0x983e5152, 0xa831c66d, 0xb00327c8, 0xbf597fc7, 0xc6e00bf3, 0xd5a79147, 0x06ca6351, 0x14292967]

/-- The round constants `K[32..63]` (R59). -/
def roundConstantsHigh : List Word :=
  [0x27b70a85, 0x2e1b2138, 0x4d2c6dfc, 0x53380d13, 0x650a7354, 0x766a0abb, 0x81c2c92e, 0x92722c85] ++
  [0xa2bfe8a1, 0xa81a664b, 0xc24b8b70, 0xc76c51a3, 0xd192e819, 0xd6990624, 0xf40e3585, 0x106aa070] ++
  [0x19a4c116, 0x1e376c08, 0x2748774c, 0x34b0bcb5, 0x391c0cb3, 0x4ed8aa4a, 0x5b9cca4f, 0x682e6ff3] ++
  [0x748f82ee, 0x78a5636f, 0x84c87814, 0x8cc70208, 0x90befffa, 0xa4506ceb, 0xbef9a3f7, 0xc67178f2]

/-- The 64 round constants `K[0..63]` (R59). -/
def roundConstants : List Word := roundConstantsLow ++ roundConstantsHigh

/-- The initial Digest State words `IV[0..7]` (R60). -/
def initialState : DigestState :=
  #v[0x6a09e667, 0xbb67ae85, 0x3c6ef372, 0xa54ff53a, 0x510e527f, 0x9b05688c, 0x1f83d9ab, 0x5be0cd19]

/-! ## Word functions -/

/-- `ROTR(x, n)` of R9: `(x >> n) OR (x << (32 - n))`, truncated to 32 bits. -/
def rotr (x : Word) (n : Nat) : Word := (x >>> n) ||| (x <<< (32 - n))

/-- `SHR(x, n)` of R9: the logical right shift, zero-filling. -/
def shr (x : Word) (n : Nat) : Word := x >>> n

/-- `Ch` of R61. -/
def ch (x y z : Word) : Word := (x &&& y) ^^^ (~~~x &&& z)

/-- `Maj` of R61. -/
def maj (x y z : Word) : Word := (x &&& y) ^^^ (x &&& z) ^^^ (y &&& z)

/-- `BSIG0` of R61, the standard's upper-case Sigma0. -/
def bsig0 (x : Word) : Word := rotr x 2 ^^^ rotr x 13 ^^^ rotr x 22

/-- `BSIG1` of R61, the standard's upper-case Sigma1. -/
def bsig1 (x : Word) : Word := rotr x 6 ^^^ rotr x 11 ^^^ rotr x 25

/-- `SSIG0` of R61, the standard's lower-case sigma0. -/
def ssig0 (x : Word) : Word := rotr x 7 ^^^ rotr x 18 ^^^ shr x 3

/-- `SSIG1` of R61, the standard's lower-case sigma1. -/
def ssig1 (x : Word) : Word := rotr x 17 ^^^ rotr x 19 ^^^ shr x 10

/-! ## Message schedule -/

/-- `be32(B[4t], B[4t+1], B[4t+2], B[4t+3])` of R62, for `t` in 0 to 15. -/
def blockWord (b : Block) (t : Nat) : Word :=
  be32 (b.getD (4 * t) 0) (b.getD (4 * t + 1) 0) (b.getD (4 * t + 2) 0) (b.getD (4 * t + 3) 0)

/-- One schedule word of the recurrence of R62, appended to the words `W[0..t-1]` before it. -/
def scheduleStep (w : List Word) (t : Nat) : List Word :=
  w ++ [ssig1 (w.getD (t - 2) 0) + w.getD (t - 7) 0 + ssig0 (w.getD (t - 15) 0) + w.getD (t - 16) 0]

/-- The 64 schedule words `W[0..63]` of a block (R62). -/
def messageSchedule (b : Block) : List Word :=
  (List.range' 16 48).foldl scheduleStep ((List.range 16).map (blockWord b))

/-! ## The rounds -/

/-- The working variables `a` to `h` of R63. They exist only inside one compression (R15). -/
structure Working where
  a : Word
  b : Word
  c : Word
  d : Word
  e : Word
  f : Word
  g : Word
  h : Word
  deriving DecidableEq, Repr

/-- The working variables start as the input state (R63). -/
def workingOf (s : DigestState) : Working :=
  { a := s[0], b := s[1], c := s[2], d := s[3], e := s[4], f := s[5], g := s[6], h := s[7] }

/-- One round of R63 with its round constant and schedule word, every assignment reading the values from before it. -/
def round (v : Working) (k w : Word) : Working :=
  let t1 := v.h + bsig1 v.e + ch v.e v.f v.g + k + w
  let t2 := bsig0 v.a + maj v.a v.b v.c
  { a := t1 + t2, b := v.a, c := v.b, d := v.c, e := v.d + t1, f := v.e, g := v.f, h := v.g }

/-- Rounds over paired round constants and schedule words, in order (R63). -/
def rounds (kws : List (Word × Word)) (v : Working) : Working := kws.foldl (fun v kw => round v kw.1 kw.2) v

/-- Feed-forward (R64): the input state plus the post-round variables, word by word modulo 2^32. -/
def feedForward (s : DigestState) (v : Working) : DigestState :=
  #v[s[0] + v.a, s[1] + v.b, s[2] + v.c, s[3] + v.d, s[4] + v.e, s[5] + v.f, s[6] + v.g, s[7] + v.h]

/-- `compress(H, B)` of R57 and R64. -/
def compress (s : DigestState) (b : Block) : DigestState :=
  feedForward s (rounds (roundConstants.zip (messageSchedule b)) (workingOf s))

/-- `fold(compress, H, blocks)` of R22 over the first `n` 64-byte blocks of a byte sequence, in order. -/
def compressBlocks : Nat → DigestState → List Byte → DigestState
  | 0, s, _ => s
  | n + 1, s, bs => compressBlocks n (compress s (byteVec 64 bs)) (bs.drop 64)

/-- `bytes32(H[0]) ++ ... ++ bytes32(H[7])` of R36 and R69: the 32 digest bytes of a Digest State. -/
def digestBytes (s : DigestState) : List Byte := s.toList.flatMap bytes32

end Sys2Proof.Machine
end

