-- ==== Sys2Proof/Machine/State.lean ====
section
/-! DEFINITION. The architectural state of the core (rule R14 of `spec/10_state.md`), its reset value (R94), and the
reasons a step can stop. The core holds no other architectural state: no general registers, no data memory (R15, R16).
The one field R14 does not list is the model's own: the stream bytes delivered and not yet read (R34). -/

namespace Sys2Proof.Machine

/-- Lifecycle of an engine (R19). Its two-bit encoding is `Lifecycle.code` in `Machine/Flags.lean`; the value 3 is
never held (U12). -/
inductive Lifecycle where
  /-- UNINIT = 0, after a core reset. -/
  | uninit
  /-- ACCUM = 1, after an engine reset. -/
  | accum
  /-- FINAL = 2, after a finalize. -/
  | final
  deriving DecidableEq, Repr

/-- One Digest Engine (R18): Digest State, Block Buffer with its occupancy, Total Length Counter, lifecycle state. -/
structure Engine where
  /-- `ST` (R19). -/
  st : Lifecycle
  /-- `H[0..7]`, the Digest State (R23). -/
  h : Vector Word 8
  /-- `BUF[0..63]`, the Block Buffer; the bytes at and past the occupancy are stale (R20). -/
  buf : Vector Byte 64
  /-- `OCC`, the occupancy, 0 to 63 between commands (R20). -/
  occ : BitVec 7
  /-- `LEN`, the Total Length Counter in bytes (R21). -/
  len : DWord
  deriving DecidableEq, Repr

/-- The state of the core (R14). -/
structure State where
  /-- `E[0]`, the HMAC inner engine. -/
  e0 : Engine
  /-- `E[1]`, the HMAC outer engine. -/
  e1 : Engine
  /-- `IPAD[0..63]` (R24). -/
  ipad : Vector Byte 64
  /-- `OPAD[0..63]` (R24). -/
  opad : Vector Byte 64
  /-- `KV`: IPAD and OPAD hold a derived key (R24). -/
  kv : Bool
  /-- `HS`: an HMAC session is open (R25). -/
  hs : Bool
  /-- `EQR`: result of the last EQ (R26). -/
  eqr : Bool
  /-- `DOUT[0..31]`: the last digest or tag (R27). -/
  dout : Vector Byte 32
  /-- `FLT`: the sticky fault flag (R28). -/
  flt : Bool
  /-- `FCAUSE`: cause code of the fault (R28, R86). -/
  fcause : BitVec 8
  /-- `FHDR`: header word of the faulting command (R28). -/
  fhdr : Word
  /-- `SPOS`: stream offset of the next command (R17). -/
  spos : DWord
  /-- The model's own field: the bytes the host has delivered and the core has not read, in stream order (R34). -/
  stream : List Byte
  deriving DecidableEq, Repr

/-- An engine right after a core reset. UNINIT is the spec's (R14). The other fields are unspecified there and no rule
reads them before a write (R95): DESIGN CHOICE zero, log entry 1. -/
def Engine.initial : Engine :=
  { st := .uninit, h := Vector.replicate 8 0, buf := Vector.replicate 64 0, occ := 0, len := 0 }

/-- The core right after reset (R14, R94). IPAD and OPAD are unspecified there: DESIGN CHOICE zero, log entry 1. No
byte has been delivered: the first byte after reset is stream offset 0. -/
def State.reset : State :=
  { e0 := Engine.initial
    e1 := Engine.initial
    ipad := Vector.replicate 64 0
    opad := Vector.replicate 64 0
    kv := false
    hs := false
    eqr := false
    dout := Vector.replicate 32 0
    flt := false
    fcause := 0
    fhdr := 0
    spos := 0
    stream := [] }

/-- Why a step has no next state. None of these is an effect of a command: a command that raises a fault of R86 takes
the fault entry of R88, which is a next state. -/
inductive Fault where
  /-- Raised by the fetch of `Machine/Fetch.lean`, with `FLT = 1`: the core executes no command until reset (R89: "A
  faulted core is quiescent: it has no further step"). Safe: the spec gives no successor. -/
  | coreFaulted
  /-- Raised by the fetch when every delivered byte has been read: the core waits for the next header (R94, and the clean
  end of R98). Safe: nothing happens until the host delivers bytes or resets. -/
  | awaitingCommand
  /-- Raised by the fetch when only part of a command has been delivered: the core holds and no state changes (R34, R98,
  R100; U13 `stuck`). Safe: nothing happens until the host delivers bytes or resets. -/
  | awaitingRest
  deriving DecidableEq, Repr

/-- Why a step is refused. -/
inductive Refusal where
  /-- Raised by `exec` for an instruction that has no meaning yet; safe. No arm of `exec` raises it. -/
  | notModelled (mnemonic : String)
  deriving DecidableEq, Repr

/-- The outcome of executing a command or a step. -/
abbrev Result := Host.Outcome State Fault Refusal

end Sys2Proof.Machine
end

