-- ==== Sys2Proof/Machine/Engine.lean ====
section
/-! DEFINITION. The Digest Engine's internal procedures (rules R66 to R70 and R72 of `spec/41_digest_engine.md`): engine
reset, AbsorbBlocks, Absorb, the pad and Finalize, as functions of one engine's fields, and the `sha256` function they
give. The engine commands and the HMAC driver call them. -/

namespace Sys2Proof.Machine

/-- The engine reset of R72, R78 and R80: `H <- IV`, `OCC <- 0`, `LEN <- 0`, `ST <- ACCUM`. The buffer is not cleared. -/
def Engine.reset (g : Engine) : Engine := { g with st := .accum, h := initialState, occ := 0, len := 0 }

/-- `buf[pos .. pos + |bs| - 1] <- bs`: the other positions keep their bytes. -/
def writeBytes (buf : Block) (pos : Nat) (bs : List Byte) : Block :=
  Vector.ofFn fun j => if pos ≤ j.val ∧ j.val < pos + bs.length then bs.getD (j.val - pos) 0 else buf[j]

/-- The bytes of `data` that step (2) of R66 moves into a non-empty buffer: `min(64 - OCC, |data|)`. -/
def Engine.fillCount (g : Engine) (data : List Byte) : Nat :=
  if g.occ = 0 then 0 else min (64 - g.occ.toNat) data.length

/-- Step (2) of R66: fill a non-empty buffer from the front of `data`, and compress it when it is full. -/
def Engine.fill (g : Engine) (data : List Byte) : Engine :=
  if g.occ = 0 then g
  else
    let k := g.fillCount data
    let buf := writeBytes g.buf g.occ.toNat (data.take k)
    if g.occ.toNat + k = 64 then { g with h := compress g.h buf, buf := buf, occ := 0 }
    else { g with buf := buf, occ := BitVec.ofNat 7 (g.occ.toNat + k) }

/-- Steps (3) and (4) of R66 on what step (2) left: compress whole 64-byte chunks, then keep the tail in the buffer. -/
def Engine.absorbRest (g : Engine) (data : List Byte) : Engine :=
  let q := data.length / 64
  let tail := data.drop (64 * q)
  let g := { g with h := compressBlocks q g.h data }
  if tail.length = 0 then g
  else { g with buf := writeBytes g.buf 0 tail, occ := BitVec.ofNat 7 tail.length }

/-- `AbsorbBlocks(e, data)` of R66; `LEN` is not touched. -/
def Engine.absorbBlocks (g : Engine) (data : List Byte) : Engine :=
  (g.fill data).absorbRest (data.drop (g.fillCount data))

/-- `Absorb(e, data)` of R67. -/
def Engine.absorb (g : Engine) (data : List Byte) : Engine :=
  { g with len := g.len + BitVec.ofNat 64 data.length }.absorbBlocks data

/-- The pad of R68 for occupancy `r` and length counter `len`: `[0x80] ++ zeros((55 - r) mod 64) ++ bytes64(8 * LEN)`,
the residue non-negative. -/
def padBytes (r : Nat) (len : DWord) : List Byte :=
  [0x80] ++ zeros ((55 - (r : Int)) % 64).toNat ++ bytes64 (8 * len)

/-- The engine after `Finalize(e)` of R69: the pad absorbed, `LEN` unchanged, `ST <- FINAL`. -/
def Engine.finalize (g : Engine) : Engine :=
  { g.absorbBlocks (padBytes g.occ.toNat g.len) with st := .final }

/-- The 32 bytes `Finalize(e)` returns (R69): the Digest State after the pad, big-endian. -/
def Engine.digest (g : Engine) : List Byte := digestBytes g.finalize.h

/-- `sha256(m)` of R70: the digest a fresh engine gives `m`. It runs on an engine of its own, not E0 or E1. -/
def sha256 (m : List Byte) : List Byte := (Engine.initial.reset.absorb m).digest

/-- The check of R74: absorbing `n` more bytes would pass LMAX. The sum is taken without wrap-around. -/
def Engine.lengthOverflow (g : Engine) (n : Nat) : Bool := decide (g.len.toNat + n > Config.lmax)

end Sys2Proof.Machine
end

