-- ==== Sys2Proof/Machine/Operands.lean ====
section
/-! DEFINITION. Operand access (rules R16, R18, R48): the engine an engine select names, and the normalized key and pad
bytes a key payload stands for (R76, R77 of `spec/42_hmac.md`). -/

namespace Sys2Proof.Machine

/-- The engine an operand `e` names (R18, R48). -/
def State.engine (s : State) : EngineId → Engine
  | .e0 => s.e0
  | .e1 => s.e1

/-- Replace the engine an operand `e` names; the other engine is untouched (R18). -/
def State.setEngine (s : State) (e : EngineId) (g : Engine) : State :=
  match e with
  | .e0 => { s with e0 := g }
  | .e1 => { s with e1 := g }

/-- `normkey(key)` of R76: a key of more than 64 bytes is hashed first, then the key is zero-padded to 64 bytes. -/
def normKey (key : List Byte) : List Byte :=
  let k := if key.length > 64 then sha256 key else key
  k ++ zeros (64 - k.length)

/-- A pad of R77: each byte of the normalized key XOR the pad byte. -/
def padOf (c : Byte) (nk : List Byte) : Block := byteVec 64 (nk.map (· ^^^ c))

end Sys2Proof.Machine
end

