-- ==== Sys2Proof/Machine/Flags.lean ====
section
/-! DEFINITION. The core's flags: the lifecycle codes and the STATUS word (rules R19, R30 of `spec/10_state.md`), and the
flag EQ computes (R83 of `spec/43_equality.md`). These are the core's only flags (R30). -/

namespace Sys2Proof.Machine

/-- The two-bit encoding of the lifecycle states (R19). -/
def Lifecycle.code : Lifecycle → BitVec 2
  | .uninit => 0
  | .accum => 1
  | .final => 2

/-- STATUS (R30): E0ST [1:0], E1ST [3:2], KV [4], HS [5], EQR [6], FLT [7], reserved bits [31:8] zero. -/
def State.status (s : State) : Word :=
  (0 : BitVec 24) ++ BitVec.ofBool s.flt ++ BitVec.ofBool s.eqr ++ BitVec.ofBool s.hs ++ BitVec.ofBool s.kv ++
    s.e1.st.code ++ s.e0.st.code

/-- The accumulator of R83 after all positions of two sequences: the OR of the XORs of the bytes pairwise. -/
def eqAccumulate (a b : List Byte) : Byte := (a.zip b).foldl (fun acc p => acc ||| (p.1 ^^^ p.2)) 0

/-- The value EQ gives EQR (R83): 0 for different lengths, else 1 exactly when the accumulator is zero. -/
def eqResult (a b : List Byte) : Bool :=
  if a.length ≠ b.length then false else decide (eqAccumulate a b = 0)

end Sys2Proof.Machine
end

