-- ==== Sys2Proof/Machine/Ops.lean ====
section
/-! DEFINITION. The operations every command shares: the fault causes (rule R86 of `spec/60_exceptions.md`), the fault
entry (R88) and what it discards (R89), a command's checks in priority order (R87), and completion, which advances SPOS
(R17). There is no return from a fault: only reset leaves the faulted state (R90), and it is `State.hardReset`. -/

namespace Sys2Proof.Machine

/-- The fault causes that a command can raise (R86). Code 0 is no fault, and 10 to 255 are never raised. -/
inductive Cause where
  | illegalOpcode
  | reservedField
  | engineUninit
  | engineFinalized
  | engineOwned
  | noKey
  | noSession
  | sessionActive
  | lengthOverflow
  deriving DecidableEq, Repr

/-- The cause code of R86, as FCAUSE holds it. -/
def Cause.code : Cause → BitVec 8
  | .illegalOpcode => 1
  | .reservedField => 2
  | .engineUninit => 3
  | .engineFinalized => 4
  | .engineOwned => 5
  | .noKey => 6
  | .noSession => 7
  | .sessionActive => 8
  | .lengthOverflow => 9

/-- `raise Fault(code)` of R88: FLT, FCAUSE and FHDR are written, SPOS keeps the offset of the faulting header, and
nothing else of the architectural state changes. The bytes already delivered behind the command are discarded (R89). -/
def State.raiseFault (s : State) (c : Cause) (hdr : Word) : State :=
  { s with flt := true, fcause := c.code, fhdr := hdr, stream := [] }

/-- A command completes without a fault: `SPOS <- SPOS + size`, modulo 2^64 (R17). -/
def State.complete (s : State) (size : Nat) : State := { s with spos := s.spos + BitVec.ofNat 64 size }

/-- The cause of the first check that fails, in order (R87); a check is paired with its condition for failing. -/
def firstFailing : List (Bool × Cause) → Option Cause
  | [] => none
  | (failed, c) :: rest => if failed then some c else firstFailing rest

/-- Execute command `i`: its checks in order on the state before it (R87), then either the fault entry (R88) on
that state or the completed state, `done` being that state with the command's writes made (R12, R53). -/
def guarded (i : Instr) (checks : List (Bool × Cause)) (s done : State) : Result :=
  match firstFailing checks with
  | some c => .next (s.raiseFault c i.header)
  | none => .next (done.complete i.size)

/-- The reset input (R94): every state element takes its reset value, from any state, and delivered bytes not yet
executed are discarded. -/
def State.hardReset (_ : State) : State := State.reset

end Sys2Proof.Machine
end

