-- ==== Sys2Proof/Machine/EngineCommands.lean ====
section
/-! DEFINITION. The engine commands ERST, EABS and EFIN (rules R72, R73 and R75 of `spec/41_digest_engine.md`). -/

namespace Sys2Proof.Machine

/-- ERST e (R72): check 5, then the engine reset. -/
def execErst (e : EngineId) (s : State) : Result :=
  guarded (.erst e) [(s.hs, .engineOwned)] s (s.setEngine e (s.engine e).reset)

/-- EABS e, data (R73): checks 5, 3, 4, 9, then Absorb. -/
def execEabs (e : EngineId) (data : List Byte) (s : State) : Result :=
  guarded (.eabs e data)
    [(s.hs, .engineOwned), (decide ((s.engine e).st = .uninit), .engineUninit),
      (decide ((s.engine e).st = .final), .engineFinalized),
      ((s.engine e).lengthOverflow data.length, .lengthOverflow)]
    s (s.setEngine e ((s.engine e).absorb data))

/-- EFIN e (R75): checks 5, 3, 4, then Finalize, whose 32 bytes go to DOUT. -/
def execEfin (e : EngineId) (s : State) : Result :=
  guarded (.efin e)
    [(s.hs, .engineOwned), (decide ((s.engine e).st = .uninit), .engineUninit),
      (decide ((s.engine e).st = .final), .engineFinalized)]
    s { s.setEngine e (s.engine e).finalize with dout := byteVec 32 (s.engine e).digest }

end Sys2Proof.Machine
end

