-- ==== Sys2Proof/Machine/Equality.lean ====
section
/-! DEFINITION. The Equality Checker's command EQ (rule R83 of `spec/43_equality.md`). The timing requirement of R84 is
outside the model: no rule of the model reads time. -/

namespace Sys2Proof.Machine

/-- EQ A, B (R83): no check of its own; EQR takes the comparison's result and nothing else is written. -/
def execEqCheck (a b : List Byte) (s : State) : Result :=
  guarded (.eqCheck a b) [] s { s with eqr := eqResult a b }

end Sys2Proof.Machine
end

