-- ==== Sys2Proof/Machine/Hmac.lean ====
section
/-! DEFINITION. The HMAC driver's commands HKEY, HSTART, HDATA and HFIN (rules R77 to R80 of `spec/42_hmac.md`). -/

namespace Sys2Proof.Machine

/-- HKEY key (R77): check 8, then both pads from the normalized key, and KV. A long key is hashed on an engine of its
own, so E0, E1 and DOUT are untouched (R76). -/
def execHkey (key : List Byte) (s : State) : Result :=
  guarded (.hkey key) [(s.hs, .sessionActive)] s
    { s with
      ipad := padOf Config.ipadc (normKey key)
      opad := padOf Config.opadc (normKey key)
      kv := true }

/-- HSTART (R78): check 6, then E0 is reset and absorbs IPAD, and the session opens. -/
def execHstart (s : State) : Result :=
  guarded .hstart [(!s.kv, .noKey)] s { s with e0 := s.e0.reset.absorb s.ipad.toList, hs := true }

/-- HDATA frag (R79): checks 7, 9, then E0 absorbs the fragment. -/
def execHdata (frag : List Byte) (s : State) : Result :=
  guarded (.hdata frag) [(!s.hs, .noSession), (s.e0.lengthOverflow frag.length, .lengthOverflow)] s
    { s with e0 := s.e0.absorb frag }

/-- HFIN's outer pass before its Finalize (R80): E1 reset, then OPAD and the inner digest absorbed. -/
def hfinOuter (s : State) : Engine := (s.e1.reset.absorb s.opad.toList).absorb s.e0.digest

/-- HFIN (R80): check 7, then the inner pass is finalized on E0 and the outer pass runs on E1; the tag goes to DOUT and
the session closes. The inner digest is written nowhere. -/
def execHfin (s : State) : Result :=
  guarded .hfin [(!s.hs, .noSession)] s
    { s with
      e0 := s.e0.finalize
      e1 := (hfinOuter s).finalize
      dout := byteVec 32 (hfinOuter s).digest
      hs := false }

end Sys2Proof.Machine
end

