-- ==== Sys2Proof/Machine/Dispatch.lean ====
section
/-! DEFINITION. One arm per command (rule R50): each calls its meaning. -/

namespace Sys2Proof.Machine

def exec (i : Instr) (s : State) : Host.Outcome State Fault Refusal :=
  match i with
  | .erst e => Sys2Proof.Machine.execErst e s
  | .eabs e data => Sys2Proof.Machine.execEabs e data s
  | .efin e => Sys2Proof.Machine.execEfin e s
  | .hkey key => Sys2Proof.Machine.execHkey key s
  | .hstart => Sys2Proof.Machine.execHstart s
  | .hdata frag => Sys2Proof.Machine.execHdata frag s
  | .hfin => Sys2Proof.Machine.execHfin s
  | .eqCheck a b => Sys2Proof.Machine.execEqCheck a b s

end Sys2Proof.Machine
end

