-- ==== Sys2Proof/Machine/Fetch.lean ====
section
/-! DEFINITION. Reading the next command from the delivered bytes (rules R34 and R53), the header faults, and the
conditions under which no command can run. -/

namespace Sys2Proof.Machine

/-- What fetching the next command gives. -/
inductive Fetched where
  /-- A command, and the state with its bytes read from the stream (R34). -/
  | command (i : Instr) (s : State)
  /-- A header fault (causes 1 and 2 of R51), with the state after its fault entry. -/
  | headerFault (s : State)
  /-- No command can run, and nothing changes. -/
  | hold (reason : Fault)
  deriving DecidableEq, Repr

/-- Fetch the next command: none while the core is faulted (R89), none until all its bytes are in (R34, R100), and the
two header checks before any payload is read (R53). -/
def State.fetch (s : State) : Fetched :=
  if s.flt then .hold .coreFaulted
  else
    match decode s.stream with
    | .command i rest => .command i { s with stream := rest }
    | .illegalOpcode hdr => .headerFault (s.raiseFault .illegalOpcode hdr)
    | .reservedField hdr => .headerFault (s.raiseFault .reservedField hdr)
    | .incomplete => .hold (if s.stream.length = 0 then .awaitingCommand else .awaitingRest)

/-- Place an instruction of the opcode table where the next fetch reads: its bytes become the undelivered stream. -/
def State.placeWord (s : State) (nbits w : Nat) : State := { s with stream := tableStream nbits w }

end Sys2Proof.Machine
end

