-- ==== Sys2Proof/Machine/Step.lean ====
section
/-! DEFINITION. One step of the core: the next whole command of the stream, executed completely (rules R12, R41, R53). -/

namespace Sys2Proof.Machine

/-- One step: fetch, then execute. A header fault is a step of its own; a hold has no next state. -/
def step (s : State) : Host.Outcome State Fault Refusal :=
  match s.fetch with
  | .command i t => exec i t
  | .headerFault t => .next t
  | .hold reason => .fault reason

/-- The state whose next fetch reads the opcode table's instruction `w`: its bytes are what the host has delivered. In a
faulted state no command runs (R89), so there the step stays the hold `coreFaulted`. -/
def State.withFetchWord (s : State) (nbits w : Nat) : State := s.placeWord nbits w

end Sys2Proof.Machine
end

