-- ==== Sys2Proof/Machine/Assembler.lean ====
section
/-! DEFINITION. The pseudo-instructions and the assembler syntax (rules R56 and R55 of `spec/30_encoding.md`). They are
host-side text: no command of the core depends on this file. What R55 leaves open (blanks, decimal counts, the case of
`zeros`, `rep` and `x`) is log entry 6. -/

namespace Sys2Proof.Machine

/-! ## Pseudo-instructions (R56) -/

/-- The three pseudo-instructions. None is a command of the core. -/
inductive Pseudo where
  /-- `DIGEST eN, <m>`: `digest_oneshot`. -/
  | digest (e : EngineId) (m : List Byte)
  /-- `HDIGEST <f1>, ..., <fk>`: the HMAC `digest` of `k` fragments. -/
  | hdigest (frags : List (List Byte))
  /-- `HMAC <key>, <f1>, ..., <fk>`: `hmac_oneshot`. -/
  | hmac (key : List Byte) (frags : List (List Byte))
  deriving DecidableEq, Repr

/-- The fixed command sequence a pseudo-instruction expands to. -/
def Pseudo.expand : Pseudo → List Instr
  | .digest e m => [.erst e, .eabs e m, .efin e]
  | .hdigest frags => .hstart :: frags.map Instr.hdata ++ [.hfin]
  | .hmac key frags => .hkey key :: .hstart :: frags.map Instr.hdata ++ [.hfin]

/-- The stream bytes of a command sequence, in order. -/
def encodeAll (is : List Instr) : List Byte := is.flatMap encode

/-! ## Byte terms (R55) -/

/-- Skip blanks and tabs. -/
def skipBlanks (cs : List Char) : List Char := cs.dropWhile fun c => c = ' ' || c = '\t'

/-- The rest of the text after a given character, blanks before it skipped. -/
def expectChar (c : Char) (cs : List Char) : Option (List Char) :=
  match skipBlanks cs with
  | d :: rest => if d = c then some rest else none
  | [] => none

/-- The hex digits of R55's literals, each at the position of its value. -/
def hexDigits : List Char :=
  ['0', '1', '2', '3', '4', '5', '6', '7'] ++ ['8', '9', 'a', 'b', 'c', 'd', 'e', 'f']

/-- The value of a hex digit, in either case (log entry 6). -/
def hexDigit (c : Char) : Option Nat := hexDigits.idxOf? c.toLower

/-- The byte two hex digits stand for. -/
def hexByte (h l : Char) : Option Byte :=
  (hexDigit h).bind fun x => (hexDigit l).map fun y => BitVec.ofNat 8 (16 * x + y)

/-- The body of a string literal up to its closing quote: each character its ASCII code, with the escapes for the
backslash, the quote and `\xHH`. -/
def parseString : List Char → Option (List Byte × List Char)
  | [] => none
  | c :: rest =>
    if c = '\x22' then some ([], rest)
    else if c = '\x5c' then
      match rest with
      | 'x' :: h :: l :: r => (hexByte h l).bind fun b => (parseString r).map fun p => (b :: p.1, p.2)
      | d :: r =>
        if d = '\x22' || d = '\x5c' then (parseString r).map fun p => (BitVec.ofNat 8 d.toNat :: p.1, p.2) else none
      | [] => none
    else if c.toNat < 128 then (parseString rest).map fun p => (BitVec.ofNat 8 c.toNat :: p.1, p.2)
    else none

/-- The body of a hex literal up to its closing quote: two digits per byte, first byte first. -/
def parseHex : List Char → Option (List Byte × List Char)
  | [] => none
  | c :: rest =>
    if c = '\x22' then some ([], rest)
    else
      match rest with
      | l :: r => (hexByte c l).bind fun b => (parseHex r).map fun p => (b :: p.1, p.2)
      | [] => none

/-- The value of a decimal digit. -/
def decimalDigit (c : Char) : Option Nat := (hexDigits.take 10).idxOf? c

/-- Read on in a decimal number whose digits so far have the value `n`, up to the first character that is no digit. -/
def parseDigits (n : Nat) : List Char → Nat × List Char
  | [] => (n, [])
  | c :: cs =>
    match decimalDigit c with
    | some d => parseDigits (10 * n + d) cs
    | none => (n, c :: cs)

/-- The count `N` of `zeros(N)` and `rep(N, t)`: a decimal number of at least one digit (log entry 6). -/
def parseNumber (cs : List Char) : Option (Nat × List Char) :=
  match skipBlanks cs with
  | c :: r => (decimalDigit c).map fun d => parseDigits d r
  | [] => none

/-- One byte term: a string literal, a hex literal, `zeros(N)` or `rep(N, <term>)`. -/
def parseTerm : Nat → List Char → Option (List Byte × List Char)
  | 0, _ => none
  | fuel + 1, cs =>
    match skipBlanks cs with
    | '\x22' :: r => parseString r
    | 'x' :: '\x22' :: r => parseHex r
    | 'z' :: 'e' :: 'r' :: 'o' :: 's' :: r =>
      (expectChar '(' r).bind fun r => (parseNumber r).bind fun (n, r) => (expectChar ')' r).map fun r => (zeros n, r)
    | 'r' :: 'e' :: 'p' :: r =>
      (expectChar '(' r).bind fun r => (parseNumber r).bind fun (n, r) => (expectChar ',' r).bind fun r =>
        (parseTerm fuel r).bind fun (t, r) => (expectChar ')' r).map fun r => ((List.replicate n t).flatten, r)
    | _ => none

/-- `<bytes>`: one or more byte terms joined by `++`. -/
def parseBytes : Nat → List Char → Option (List Byte × List Char)
  | 0, _ => none
  | fuel + 1, cs =>
    (parseTerm (cs.length + 1) cs).bind fun (t, r) =>
      match skipBlanks r with
      | '+' :: '+' :: r => (parseBytes fuel r).map fun p => (t ++ p.1, p.2)
      | r => some (t, r)

/-- One `<bytes>` operand. -/
def parseOperand (cs : List Char) : Option (List Byte × List Char) := parseBytes (cs.length + 1) cs

/-- Further `<bytes>` operands, each after a comma; none when no comma follows. -/
def parseMore : Nat → List Char → Option (List (List Byte) × List Char)
  | 0, _ => none
  | fuel + 1, cs =>
    match skipBlanks cs with
    | ',' :: r => (parseOperand r).bind fun (b, r) => (parseMore fuel r).map fun p => (b :: p.1, p.2)
    | r => some ([], r)

/-- An engine name, in either case. -/
def parseEngine (cs : List Char) : Option (EngineId × List Char) :=
  match skipBlanks cs with
  | c :: d :: r =>
    if c.toLower = 'e' && d = '0' then some (.e0, r)
    else if c.toLower = 'e' && d = '1' then some (.e1, r)
    else none
  | _ => none

/-! ## Lines (R55, R56) -/

/-- Nothing is left on the line but blanks and a comment. -/
def endOfLine (cs : List Char) : Bool :=
  match skipBlanks cs with
  | [] => true
  | c :: _ => c = ';'

/-- The commands of a line whose mnemonic is `m`, in upper case, and whose text after the mnemonic is `cs`. -/
def parseOperands (m cs : List Char) : Option (List Instr × List Char) :=
  if m = ['E', 'R', 'S', 'T'] then (parseEngine cs).map fun (e, r) => ([.erst e], r)
  else if m = ['E', 'A', 'B', 'S'] then
    (parseEngine cs).bind fun (e, r) => (expectChar ',' r).bind fun r =>
      (parseOperand r).map fun (b, r) => ([.eabs e b], r)
  else if m = ['E', 'F', 'I', 'N'] then (parseEngine cs).map fun (e, r) => ([.efin e], r)
  else if m = ['H', 'K', 'E', 'Y'] then (parseOperand cs).map fun (b, r) => ([.hkey b], r)
  else if m = ['H', 'S', 'T', 'A', 'R', 'T'] then some ([.hstart], cs)
  else if m = ['H', 'D', 'A', 'T', 'A'] then (parseOperand cs).map fun (b, r) => ([.hdata b], r)
  else if m = ['H', 'F', 'I', 'N'] then some ([.hfin], cs)
  else if m = ['E', 'Q'] then
    (parseOperand cs).bind fun (a, r) => (expectChar ',' r).bind fun r =>
      (parseOperand r).map fun (b, r) => ([.eqCheck a b], r)
  else if m = ['D', 'I', 'G', 'E', 'S', 'T'] then
    (parseEngine cs).bind fun (e, r) => (expectChar ',' r).bind fun r =>
      (parseOperand r).map fun (b, r) => ((Pseudo.digest e b).expand, r)
  else if m = ['H', 'D', 'I', 'G', 'E', 'S', 'T'] then
    if endOfLine cs then some ((Pseudo.hdigest []).expand, cs)
    else (parseOperand cs).bind fun (b, r) =>
      (parseMore (r.length + 1) r).map fun (bs, r) => ((Pseudo.hdigest (b :: bs)).expand, r)
  else if m = ['H', 'M', 'A', 'C'] then
    (parseOperand cs).bind fun (k, r) =>
      (parseMore (r.length + 1) r).map fun (bs, r) => ((Pseudo.hmac k bs).expand, r)
  else none

/-- The commands of one line: none for a blank or comment line. A payload too long for its length word is an error. -/
def parseLine (cs : List Char) : Option (List Instr) :=
  if endOfLine cs then some []
  else
    let cs := skipBlanks cs
    match parseOperands ((cs.takeWhile Char.isAlpha).map Char.toUpper) (cs.dropWhile Char.isAlpha) with
    | some (is, rest) => if endOfLine rest && is.all Instr.wf then some is else none
    | none => none

/-- The lines of a text. -/
def splitLines : List Char → List (List Char)
  | [] => [[]]
  | c :: cs =>
    match splitLines cs with
    | [] => [[c]]
    | l :: ls => if c = '\n' then [] :: l :: ls else (c :: l) :: ls

/-- The commands of a text, or nothing when a line is not of R55's or R56's form. -/
def parseProgram (text : List Char) : Option (List Instr) :=
  (splitLines text).foldr (fun l acc => (parseLine l).bind fun is => acc.map fun rest => is ++ rest) (some [])

/-- The stream bytes a text assembles to (R55): for each command its header word, then for each `<bytes>` operand a
length word and the bytes. -/
def assemble (text : List Char) : Option (List Byte) := (parseProgram text).map encodeAll

end Sys2Proof.Machine
end

