-- ==== Sys2Proof/Machine/ReadPort.lean ====
section
/-! DEFINITION. The read port (rules R29, R30, R31 and R37): 256 read-only 32-bit words at 8-bit word addresses. A read is
a function of the state and has no side effect; no address is writable. -/

namespace Sys2Proof.Machine

/-- PARAM (R31): DIGEST [7:0], BLOCK [15:8], NENG [19:16], command interface version [23:20], zero above. -/
def paramWord : Word :=
  (0 : BitVec 8) ++ BitVec.ofNat 4 Config.interfaceVersion ++ BitVec.ofNat 4 Config.neng ++
    BitVec.ofNat 8 Config.block ++ BitVec.ofNat 8 Config.digest

/-- DOUTk (R29): `be32(DOUT[4k], DOUT[4k+1], DOUT[4k+2], DOUT[4k+3])`. -/
def State.doutWord (s : State) (k : Nat) : Word :=
  be32 (s.dout.getD (4 * k) 0) (s.dout.getD (4 * k + 1) 0) (s.dout.getD (4 * k + 2) 0) (s.dout.getD (4 * k + 3) 0)

/-- `RegRead(a)` of R11: the word at address `a` of the read port's map (R29); reserved addresses read as zero. -/
def State.readPort (s : State) (a : BitVec 8) : Word :=
  if a = 0x00 then s.status
  else if a = 0x01 then s.fcause.setWidth 32
  else if a = 0x02 then s.fhdr
  else if a = 0x03 then s.spos.extractLsb' 0 32
  else if a = 0x04 then s.spos.extractLsb' 32 32
  else if a = 0x05 then paramWord
  else if 0x08 ≤ a.toNat ∧ a.toNat ≤ 0x0f then s.doutWord (a.toNat - 0x08)
  else 0

end Sys2Proof.Machine
end

