-- ==== Sys2Proof/Machine/HostPort.lean ====
section
/-! DEFINITION. What the host can do to the core (rule R97 of `spec/70_reset_and_hazards.md`): deliver stream bytes, read a
word of the read port, and assert reset. The order between commands and reads is that of R42 of `spec/20_memory.md`. -/

namespace Sys2Proof.Machine

/-- The host delivers bytes (R34, R97). A faulted core consumes and discards them, and nothing changes (R89). -/
def State.deliver (s : State) (bs : List Byte) : State :=
  if s.flt then s else { s with stream := s.stream ++ bs }

/-- `k` steps, if each has a next state: `S_k` of R41 from `S_0`. -/
def steps : Nat → State → Option State
  | 0, s => some s
  | k + 1, s =>
    match step s with
    | .next t => steps k t
    | .fault _ => none
    | .refused _ => none

/-- Execute commands until none can run, for at most `fuel` of them. -/
def settleWithin : Nat → State → State
  | 0, s => s
  | fuel + 1, s =>
    match step s with
    | .next t => settleWithin fuel t
    | .fault _ => s
    | .refused _ => s

/-- The state once every command whose last byte has been delivered has completed: `S_n` of R42. Each command
takes at least one byte of the stream, so its length bounds their number. -/
def State.settle (s : State) : State := settleWithin s.stream.length s

/-- The word a read returns to a host that delivers nothing while the read is outstanding: its value in `S_n` (R42). -/
def State.hostRead (s : State) (a : BitVec 8) : Word := s.settle.readPort a

/-- The words a read may return while the host goes on to deliver the bytes `later`: the value in some `S_k`, `k >= n`,
`n` the number of commands delivered before the read was issued (R42). -/
def ReadMayReturn (s : State) (later : List Byte) (a : BitVec 8) (v : Word) : Prop :=
  ∃ k t, steps k (s.settle.deliver later) = some t ∧ v = t.readPort a

/-- One read of a sequence of reads: the bytes the host delivers before it issues the read, those it delivers while the
read is outstanding, the word address, and the word returned. -/
structure HostRead where
  before : List Byte
  during : List Byte
  addr : BitVec 8
  value : Word
  deriving DecidableEq, Repr

/-- A sequence of reads whose answers R42 allows: each read waits for the commands delivered before it and answers from a
state at or after them, and a later read answers from the same state or a later one. -/
def ReadsMayReturn : State → List HostRead → Prop
  | _, [] => True
  | s, r :: rs =>
    ∃ k t, steps k ((s.deliver r.before).settle.deliver r.during) = some t ∧ r.value = t.readPort r.addr ∧
      ReadsMayReturn t rs

/-- The host's interactions (R97). -/
inductive HostAction where
  /-- Deliver stream bytes. -/
  | deliver (bs : List Byte)
  /-- Read a word address; the read waits for the delivered commands (R42). -/
  | read (a : BitVec 8)
  /-- Assert the reset input. -/
  | reset
  deriving DecidableEq, Repr

/-- The state after an interaction, and the word a read returns (R97). -/
def State.hostAct (s : State) : HostAction → State × Option Word
  | .deliver bs => (s.deliver bs, none)
  | .read a => (s.settle, some (s.hostRead a))
  | .reset => (s.hardReset, none)

end Sys2Proof.Machine
end

