-- ==== Sys2Proof/Safety.lean ====
section
/-! DEFINITION. What claims about the core are stated in terms of: the message an engine stands for (rule R22), the
invariant of the machine's states, the ends of a run (R98), and which states no host can tell apart (R95). -/

namespace Sys2Proof.Machine

/-- Engine `g` stands for the message `m` (R22): the ghost message of all payloads absorbed since the engine reset. -/
structure Engine.Represents (g : Engine) (m : List Byte) : Prop where
  len : g.len.toNat = m.length
  occ : g.occ.toNat = m.length % 64
  buf : g.buf.toList.take g.occ.toNat = m.drop (m.length - g.occ.toNat)
  h : g.h = compressBlocks (m.length / 64) initialState m

/-- What holds of one engine between commands (R20, R21, R22, R69). -/
structure Engine.Ok (g : Engine) : Prop where
  occ_le : g.occ.toNat ≤ 63
  len_le : g.st ≠ .uninit → g.len.toNat ≤ Config.lmax
  accum : g.st = .accum → ∃ m, g.Represents m
  final : g.st = .final → g.occ = 0

/-- The invariant of the core's states between commands. -/
structure State.Inv (s : State) : Prop where
  engines : ∀ e, (s.engine e).Ok
  /-- `KV = 1` says the pads hold a derived key (R24). -/
  pads : s.kv = true → ∃ key, s.ipad = padOf Config.ipadc (normKey key) ∧ s.opad = padOf Config.opadc (normKey key)
  /-- In a session there is a key, and E0 is the driver's: it stands for IPAD and the fragments so far (R78, R82). -/
  session : s.hs = true → s.kv = true ∧ s.e0.st = .accum ∧ ∃ m, s.e0.Represents (s.ipad.toList ++ m)
  /-- Without a fault the fault fields hold their reset values (R28). -/
  unfaulted : s.flt = false → s.fcause = 0 ∧ s.fhdr = 0
  /-- With a fault the cause is one of 1 to 9 (R86) and no delivered byte is kept (R89). -/
  faulted : s.flt = true → 1 ≤ s.fcause.toNat ∧ s.fcause.toNat ≤ 9 ∧ s.stream = []

/-- The state a fault of cause code `code` leaves, written out from R88: the three fault fields, and nothing else of the
architectural state. The delivered bytes are discarded (R89); the field that held them is the model's (log entry 2). -/
def State.afterFault (s : State) (code : BitVec 8) (hdr : Word) : State :=
  { e0 := s.e0, e1 := s.e1, ipad := s.ipad, opad := s.opad, kv := s.kv, hs := s.hs, eqr := s.eqr, dout := s.dout
    flt := true, fcause := code, fhdr := hdr, spos := s.spos, stream := [] }

/-- The pad of R68 for `r` buffered bytes, `r <= 63`, and a message of `len` bytes, written with natural numbers. -/
def padFor (r len : Nat) : List Byte :=
  (0x80 : Byte) :: zeros ((119 - r) % 64) ++ bytes64 (BitVec.ofNat 64 (8 * len))

/-- The lifecycle state of engine `e` after command `i` has completed, from its state `st` before it (R19). -/
def lifecycleAfter (i : Instr) (e : EngineId) (st : Lifecycle) : Lifecycle :=
  match i with
  | .erst e' => if e = e' then .accum else st
  | .eabs _ _ => st
  | .efin e' => if e = e' then .final else st
  | .hkey _ => st
  | .hstart => if e = .e0 then .accum else st
  | .hdata _ => st
  | .hfin => .final
  | .eqCheck _ _ => st

/-- The engines a command acts on (R14, R72, R73, R75, R77 to R80, R83). -/
def actsOn : Instr → EngineId → Bool
  | .erst e', e => decide (e = e')
  | .eabs e' _, e => decide (e = e')
  | .efin e', e => decide (e = e')
  | .hkey _, _ => false
  | .hstart, e => decide (e = .e0)
  | .hdata _, e => decide (e = .e0)
  | .hfin, _ => true
  | .eqCheck _ _, _ => false

/-- The clean end of a run (R98 (a)): every byte delivered and executed, and no fault. -/
def State.cleanEnd (s : State) : Bool := !s.flt && s.stream.isEmpty

/-- The faulted end of a run (R98 (b)), an error. -/
def State.faultedEnd (s : State) : Bool := s.flt

/-- Two engines no command can tell apart (R20, R69, R95): outside ACCUM nothing but the lifecycle state is read, and in
ACCUM only the buffer's valid bytes are. -/
structure Engine.SameMeaning (g g' : Engine) : Prop where
  st : g.st = g'.st
  h : g.st = .accum → g.h = g'.h
  occ : g.st = .accum → g.occ = g'.occ
  len : g.st = .accum → g.len = g'.len
  buf : g.st = .accum → g.buf.toList.take g.occ.toNat = g'.buf.toList.take g.occ.toNat

/-- Two states no command and no read can tell apart (R95). -/
structure State.SameMeaning (s t : State) : Prop where
  engines : ∀ e, (s.engine e).SameMeaning (t.engine e)
  kv : s.kv = t.kv
  ipad : s.kv = true → s.ipad = t.ipad
  opad : s.kv = true → s.opad = t.opad
  hs : s.hs = t.hs
  eqr : s.eqr = t.eqr
  dout : s.dout = t.dout
  flt : s.flt = t.flt
  fcause : s.fcause = t.fcause
  fhdr : s.fhdr = t.fhdr
  spos : s.spos = t.spos
  stream : s.stream = t.stream

end Sys2Proof.Machine
end

