-- ==== Sys2Proof/Certificates/Slice0/Obligations.lean ====
section
/-! DEFINITION. The statements for the provers, from the numbered rules of `spec/`. `{ s with … }` says that every field
not named keeps its value, so each such equation states its command's frame too. The field `stream` is the model's own:
a statement about it says what the core has read, or that a fault discards the rest (R89). Stale buffer bytes (R20) are
in no statement but where a rule says that nothing is written: only the first `OCC` bytes of an engine's buffer are. -/

open Sys2Proof Sys2Proof.Machine

/-! ## Byte order and encoding -/

/-- R10: `be32`, `bytes32` and `bytes64` have the values given there, and `be32` and `bytes32` are inverse. -/
def Obligations.BigEndianConversions : Prop :=
  (∀ b0 b1 b2 b3 : Byte,
    (be32 b0 b1 b2 b3).toNat = b0.toNat * 2 ^ 24 + b1.toNat * 2 ^ 16 + b2.toNat * 2 ^ 8 + b3.toNat ∧
      bytes32 (be32 b0 b1 b2 b3) = [b0, b1, b2, b3]) ∧
    (∀ w : Word, bytes32 w =
        [w.extractLsb' 24 8, w.extractLsb' 16 8, w.extractLsb' 8 8, w.extractLsb' 0 8] ∧
      be32 (w.extractLsb' 24 8) (w.extractLsb' 16 8) (w.extractLsb' 8 8) (w.extractLsb' 0 8) = w) ∧
    ∀ v : DWord, (bytes64 v).length = 8 ∧ (bytes64 v).foldl (fun n b => 256 * n + b.toNat) 0 = v.toNat

/-- Words written out bit by bit from R46 and R50 decode to the command they stand for, one of each family. -/
def Obligations.WrittenWordsDecode : Prop :=
  decode [0x01, 0x01, 0x00, 0x00] = .command (.erst .e1) [] ∧
    decode [0x02, 0x00, 0x00, 0x00, 0x00, 0x00, 0x00, 0x03, 0x61, 0x62, 0x63] = .command (.eabs .e0 [0x61, 0x62, 0x63]) [] ∧
    decode [0x03, 0x00, 0x00, 0x00, 0xff] = .command (.efin .e0) [0xff] ∧
    decode [0x10, 0x00, 0x00, 0x00, 0x00, 0x00, 0x00, 0x01, 0x6b] = .command (.hkey [0x6b]) [] ∧
    decode [0x20, 0x00, 0x00, 0x00, 0x00, 0x00, 0x00, 0x02, 0x00, 0xff, 0x00, 0x00, 0x00, 0x02, 0x00, 0xfe] =
      .command (.eqCheck [0x00, 0xff] [0x00, 0xfe]) []

/-- R50: the header words and the payloads of the eight commands, and each opcode's mask and match select exactly the
headers that the decoder reads as that opcode with no reserved bit set. -/
def Obligations.HeaderWordsAndMasks : Prop :=
  (∀ e : EngineId, ∀ data key frag a b : List Byte,
    (Instr.erst e).header = (0x01000000 : Word) ||| (e.bit.setWidth 32 <<< 16) ∧
      (Instr.eabs e data).header = (0x02000000 : Word) ||| (e.bit.setWidth 32 <<< 16) ∧
      (Instr.efin e).header = (0x03000000 : Word) ||| (e.bit.setWidth 32 <<< 16) ∧
      (Instr.hkey key).header = 0x10000000 ∧ Instr.hstart.header = 0x11000000 ∧
      (Instr.hdata frag).header = 0x12000000 ∧ Instr.hfin.header = 0x13000000 ∧
      (Instr.eqCheck a b).header = 0x20000000 ∧
      [Instr.erst e, .eabs e data, .efin e, .hkey key, .hstart, .hdata frag, .hfin, .eqCheck a b].map Instr.payloads =
        [[], [data], [], [key], [], [frag], [], [a, b]]) ∧
    ∀ (op : Opcode) (hdr : Word),
      hdr &&& op.matchMask.2 = op.matchMask.1 ↔ Opcode.ofByte (opcField hdr) = some op ∧ reservedSet op hdr = false

/-- Every command the encoding admits, with every operand, is read back whole, and the bytes after it are left. -/
def Obligations.DecodeReadsEveryEncodedCommand : Prop :=
  ∀ (i : Instr) (rest : List Byte), i.wf = true → decode (encode i ++ rest) = .command i rest

/-- A command is read only from its own encoding: the stream bytes of each command are unique (R46, R47, R49). -/
def Obligations.DecodedBytesAreTheEncoding : Prop :=
  ∀ (bs : List Byte) (i : Instr) (rest : List Byte), decode bs = .command i rest → i.wf = true ∧ bs = encode i ++ rest

/-- R51: an undefined OPC raises cause 1 after its four header bytes, and a defined OPC with a reserved bit set raises
cause 2, whatever bytes follow. -/
def Obligations.BadHeadersFault : Prop :=
  ∀ (s : State) (hdr : Word) (rest : List Byte), s.flt = false → s.stream = bytes32 hdr ++ rest →
    (hdr.extractLsb' 24 8 ∉ ([0x01, 0x02, 0x03, 0x10, 0x11, 0x12, 0x13, 0x20] : List Byte) →
      step s = .next (s.afterFault 1 hdr)) ∧
    (hdr.extractLsb' 24 8 ∈ ([0x01, 0x02, 0x03, 0x10, 0x11, 0x12, 0x13, 0x20] : List Byte) →
      hdr.extractLsb' 17 7 ≠ 0 ∨ hdr.extractLsb' 0 16 ≠ 0 ∨
        (hdr.extractLsb' 24 8 ∉ ([0x01, 0x02, 0x03] : List Byte) ∧ hdr.extractLsb' 16 1 ≠ 0) →
      step s = .next (s.afterFault 2 hdr))

/-! ## The step, the stream and the host -/

/-- A step runs the decoded command: its bytes are read from the stream, and the step is `exec` of it. -/
def Obligations.StepRunsDecodedCommand : Prop :=
  ∀ (s : State) (i : Instr) (rest : List Byte), s.flt = false → decode s.stream = .command i rest →
    step s = exec i { s with stream := rest }

/-- R17: SPOS advances by the command's length exactly when it completes, and a faulting command leaves it alone. The
command's bytes are read from the stream, and a fault discards the rest (R89). -/
def Obligations.StreamPositionAdvancesBySize : Prop :=
  ∀ (s : State) (i : Instr) (rest : List Byte), s.flt = false → i.wf = true → s.stream = encode i ++ rest →
    ∃ t, step s = .next t ∧
      (t.flt = false → t.spos = s.spos + BitVec.ofNat 64 (encode i).length ∧ t.stream = rest) ∧
      (t.flt = true → t.spos = s.spos ∧ t.stream = [])

/-- R100: with only part of a command delivered there is no next state, and a read returns the state before it. -/
def Obligations.PartialCommandHolds : Prop :=
  ∀ (s : State) (i : Instr) (missing : List Byte), s.flt = false → i.wf = true → missing ≠ [] →
    s.stream ++ missing = encode i →
      (∃ r, step s = .fault r) ∧ s.settle = s ∧ ∀ a, s.hostRead a = s.readPort a

/-- Bytes delivered later change nothing about what the core does with the bytes it already has: how the host groups its
deliveries is not visible (R34, R41). -/
def Obligations.StepCommutesWithDelivery : Prop :=
  ∀ (s t : State) (later : List Byte), step s = .next t → step (s.deliver later) = .next (t.deliver later)

/-- Every step reads at least four bytes of the stream, so the core comes to rest (R49, R93, R103). -/
def Obligations.StepConsumesStream : Prop :=
  ∀ s t : State, step s = .next t → t.stream.length + 4 ≤ s.stream.length

/-- After the delivered commands have completed the core has no further step: it waits or is faulted (R42, R98). The
names of the three holds are the model's (log entry 3). -/
def Obligations.SettledCoreHasNoStep : Prop :=
  ∀ s : State, ∃ r, step s.settle = .fault r ∧
    (r = .coreFaulted ↔ s.settle.flt = true) ∧ (r = .awaitingCommand ↔ s.settle.cleanEnd = true)

/-- R42, for a host that delivers nothing while its read is outstanding: the read returns the value in the state after
all the commands delivered before it, and no other. -/
def Obligations.ReadReturnsSettledValue : Prop :=
  ∀ (s : State) (a : BitVec 8) (v : Word), ReadMayReturn s [] a v ↔ v = s.hostRead a

/-- Reads are monotonic and a faulted state is final (R42, R89): once a STATUS read has shown the fault flag, every later
STATUS read gives the same word and any two later reads of one address agree, whatever the host delivers meanwhile. -/
def Obligations.FaultShownStaysShown : Prop :=
  ∀ (s : State) (r : HostRead) (rs : List HostRead), ReadsMayReturn s (r :: rs) → r.addr = 0x00 →
    r.value.getLsbD 7 = true → ∀ q ∈ rs, (q.addr = 0x00 → q.value = r.value) ∧
      ∀ q' ∈ rs, q.addr = q'.addr → q.value = q'.value

/-- R94: reset gives every element its reset value from any state, discards the delivered bytes, and the core then waits
for the first header. The unspecified elements are in no clause. -/
def Obligations.ResetFromAnyState : Prop :=
  ∀ s : State,
    (∀ e, (s.hardReset.engine e).st = .uninit) ∧ s.hardReset.kv = false ∧ s.hardReset.hs = false ∧
      s.hardReset.eqr = false ∧ s.hardReset.flt = false ∧ s.hardReset.fcause = 0 ∧ s.hardReset.fhdr = 0 ∧
      s.hardReset.dout.toList = zeros 32 ∧ s.hardReset.spos = 0 ∧ s.hardReset.stream = [] ∧
      step s.hardReset = .fault .awaitingCommand

/-! ## The read port -/

/-- R29: the whole read-port map, reserved addresses included. -/
def Obligations.ReadPortMap : Prop :=
  ∀ s : State, s.readPort 0x00 = s.status ∧
    (s.readPort 0x01).extractLsb' 0 8 = s.fcause ∧ (s.readPort 0x01).extractLsb' 8 24 = 0 ∧
    s.readPort 0x02 = s.fhdr ∧ s.readPort 0x03 = s.spos.extractLsb' 0 32 ∧ s.readPort 0x04 = s.spos.extractLsb' 32 32 ∧
    s.readPort 0x05 = 0x00124020 ∧ s.readPort 0x06 = 0 ∧ s.readPort 0x07 = 0 ∧
    (∀ k : Fin 8, bytes32 (s.readPort (BitVec.ofNat 8 (8 + k.val))) = (s.dout.toList.drop (4 * k.val)).take 4) ∧
    ∀ a : BitVec 8, 0x10 ≤ a.toNat → s.readPort a = 0

/-- R30: every field of STATUS. -/
def Obligations.StatusFields : Prop :=
  ∀ s : State, (s.readPort 0x00).extractLsb' 0 2 = s.e0.st.code ∧ (s.readPort 0x00).extractLsb' 2 2 = s.e1.st.code ∧
    (s.readPort 0x00).getLsbD 4 = s.kv ∧ (s.readPort 0x00).getLsbD 5 = s.hs ∧ (s.readPort 0x00).getLsbD 6 = s.eqr ∧
    (s.readPort 0x00).getLsbD 7 = s.flt ∧ (s.readPort 0x00).extractLsb' 8 24 = 0 ∧
    ∀ a, State.reset.readPort a = if a = 0x05 then 0x00124020 else 0

/-- R32: no read shows `H`, `BUF`, `OCC`, `LEN`, `IPAD` or `OPAD`: states that differ only there read alike. -/
def Obligations.ReadsHideEnginesAndPads : Prop :=
  ∀ (s t : State) (a : BitVec 8), (∀ e, (s.engine e).st = (t.engine e).st) → s.kv = t.kv → s.hs = t.hs → s.eqr = t.eqr →
    s.dout = t.dout → s.flt = t.flt → s.fcause = t.fcause → s.fhdr = t.fhdr → s.spos = t.spos →
      s.readPort a = t.readPort a

/-! ## Faults -/

/-- R88: a step that ends in a fault has written FLT, FCAUSE and FHDR and nothing else: FHDR is the header word the
faulting command began with, SPOS keeps its offset, and the cause is one of 1 to 9. -/
def Obligations.FaultEntryIsPrecise : Prop :=
  ∀ s t : State, step s = .next t → t.flt = true →
    ∃ (hdr : Word) (rest : List Byte) (code : BitVec 8), s.stream = bytes32 hdr ++ rest ∧
      1 ≤ code.toNat ∧ code.toNat ≤ 9 ∧ t = s.afterFault code hdr

/-- R89: a faulted core executes nothing, discards every further byte, keeps its state, answers reads, and only reset
clears the fault. -/
def Obligations.FaultIsStickyAndFinal : Prop :=
  ∀ s : State, s.flt = true →
    step s = .fault .coreFaulted ∧ (∀ bs, s.deliver bs = s) ∧ s.settle = s ∧ (∀ a, s.hostRead a = s.readPort a) ∧
      s.hardReset.flt = false ∧ s.hardReset.fcause = 0 ∧ s.hardReset.fhdr = 0

/-- R87: a command reports the first check that fails, in the table's order. The header checks come first, in any
state; then each command's own. -/
def Obligations.FirstFailingCheckIsReported : Prop :=
  (∀ (s : State) (hdr : Word) (rest : List Byte), s.flt = false → s.stream = bytes32 hdr ++ rest →
    (Opcode.ofByte (opcField hdr) = none → step s = .next (s.afterFault 1 hdr)) ∧
    ∀ op, Opcode.ofByte (opcField hdr) = some op → reservedSet op hdr = true → step s = .next (s.afterFault 2 hdr)) ∧
  (∀ (s : State) (e : EngineId) (data : List Byte),
    (s.hs = true →
      exec (.erst e) s = .next (s.afterFault 5 (Instr.erst e).header) ∧
      exec (.eabs e data) s = .next (s.afterFault 5 (Instr.eabs e data).header) ∧
      exec (.efin e) s = .next (s.afterFault 5 (Instr.efin e).header)) ∧
    (s.hs = false → (s.engine e).st = .uninit →
      exec (.eabs e data) s = .next (s.afterFault 3 (Instr.eabs e data).header) ∧
      exec (.efin e) s = .next (s.afterFault 3 (Instr.efin e).header)) ∧
    (s.hs = false → (s.engine e).st = .final →
      exec (.eabs e data) s = .next (s.afterFault 4 (Instr.eabs e data).header) ∧
      exec (.efin e) s = .next (s.afterFault 4 (Instr.efin e).header)) ∧
    (s.hs = false → (s.engine e).st = .accum → 2 ^ 61 - 1 < (s.engine e).len.toNat + data.length →
      exec (.eabs e data) s = .next (s.afterFault 9 (Instr.eabs e data).header))) ∧
  (∀ (s : State) (key frag a b : List Byte),
    (s.hs = true → exec (.hkey key) s = .next (s.afterFault 8 (Instr.hkey key).header)) ∧
    (s.kv = false → exec .hstart s = .next (s.afterFault 6 Instr.hstart.header)) ∧
    (s.hs = false → exec (.hdata frag) s = .next (s.afterFault 7 (Instr.hdata frag).header) ∧
      exec .hfin s = .next (s.afterFault 7 Instr.hfin.header)) ∧
    (s.hs = true → 2 ^ 61 - 1 < s.e0.len.toNat + frag.length →
      exec (.hdata frag) s = .next (s.afterFault 9 (Instr.hdata frag).header)) ∧
    ∃ t, exec (.eqCheck a b) s = .next t ∧ t.flt = s.flt)

/-- R82: while a session is open every ERST, EABS and EFIN, naming either engine, faults with cause 5 and changes
nothing; EQ still runs, and reads still answer. -/
def Obligations.SessionOwnsBothEngines : Prop :=
  ∀ (s : State) (e : EngineId) (data a b : List Byte), s.hs = true →
    (∀ i ∈ [Instr.erst e, .eabs e data, .efin e], exec i s = .next (s.afterFault 5 i.header)) ∧
    exec (.eqCheck a b) s =
      .next { s with eqr := decide (a = b), spos := s.spos + BitVec.ofNat 64 (12 + a.length + b.length) }

/-- R74: an absorb that would pass LMAX faults with cause 9 and absorbs nothing, the sum taken without wrap-around. It is
the only effect of length: one byte less and the command completes. HSTART and HFIN absorb 64 and 96 bytes into a freshly
reset engine and cannot reach it. -/
def Obligations.LengthLimit : Prop :=
  ∀ (s : State) (e : EngineId) (data : List Byte),
    (s.hs = false → (s.engine e).st = .accum →
      ∃ t, exec (.eabs e data) s = .next t ∧
        ((s.engine e).len.toNat + data.length > 2 ^ 61 - 1 → t = s.afterFault 9 (Instr.eabs e data).header) ∧
        ((s.engine e).len.toNat + data.length ≤ 2 ^ 61 - 1 → t.flt = s.flt ∧
          (t.engine e).len.toNat = (s.engine e).len.toNat + data.length)) ∧
    (s.hs = true →
      ∃ t, exec (.hdata data) s = .next t ∧
        (s.e0.len.toNat + data.length > 2 ^ 61 - 1 → t = s.afterFault 9 (Instr.hdata data).header) ∧
        (s.e0.len.toNat + data.length ≤ 2 ^ 61 - 1 → t.flt = s.flt ∧ t.e0.len.toNat = s.e0.len.toNat + data.length)) ∧
    (s.kv = true → ∃ t, exec .hstart s = .next t ∧ t.flt = s.flt ∧ t.e0.len = 64) ∧
    (s.hs = true → ∃ t, exec .hfin s = .next t ∧ t.flt = s.flt ∧ t.e1.len = 96)

/-- "No data value causes a fault" (R86): whether a command faults, and with what cause, depends on the state and the
payload lengths alone. -/
def Obligations.FaultsIgnoreData : Prop :=
  ∀ (s : State) (e : EngineId) (data data' key key' a b : List Byte), s.flt = false → data.length = data'.length →
    (∀ t t', exec (.eabs e data) s = .next t → exec (.eabs e data') s = .next t' →
      t.flt = t'.flt ∧ t.fcause = t'.fcause ∧ t.fhdr = t'.fhdr ∧ t.spos = t'.spos) ∧
    (∀ t t', exec (.hdata data) s = .next t → exec (.hdata data') s = .next t' →
      t.flt = t'.flt ∧ t.fcause = t'.fcause ∧ t.fhdr = t'.fhdr ∧ t.spos = t'.spos) ∧
    (∀ t t', exec (.hkey key) s = .next t → exec (.hkey key') s = .next t' →
      t.flt = t'.flt ∧ t.fcause = t'.fcause ∧ t.fhdr = t'.fhdr) ∧
    ∀ t, exec (.eqCheck a b) s = .next t → t.flt = false

/-! ## The Compression Core -/

/-- R59 and R60: the 64 round constants and the 8 initial words are the first 32 bits of the fractional parts of the cube
roots of the first 64 primes and of the square roots of the first 8. -/
def Obligations.ConstantsAreRootFractions : Prop :=
  roundConstants.length = 64 ∧
    (let primes := (List.range 312).filter fun n => 2 ≤ n && (List.range n).all fun d => d < 2 || n % d != 0
    primes.length = 64 ∧
      (∀ p ∈ primes.zip roundConstants, ∃ c : Nat, c < 7 ∧ c ^ 3 < p.1 ∧ p.1 < (c + 1) ^ 3 ∧
        (c * 2 ^ 32 + p.2.toNat) ^ 3 ≤ p.1 * 2 ^ 96 ∧ p.1 * 2 ^ 96 < (c * 2 ^ 32 + p.2.toNat + 1) ^ 3) ∧
      ∀ p ∈ (primes.take 8).zip initialState.toList, ∃ c : Nat, c < 5 ∧ c ^ 2 < p.1 ∧ p.1 < (c + 1) ^ 2 ∧
        (c * 2 ^ 32 + p.2.toNat) ^ 2 ≤ p.1 * 2 ^ 64 ∧ p.1 * 2 ^ 64 < (c * 2 ^ 32 + p.2.toNat + 1) ^ 2)

/-- R61 and R9: the word functions bit by bit. `ROTR` rotates right, `Ch` selects, `Maj` takes the majority, and the
sigma functions combine the rotations and shifts given there. -/
def Obligations.WordFunctions : Prop :=
  ∀ x y z : Word,
    (∀ n i : Nat, 0 < n → n < 32 → i < 32 → (rotr x n).getLsbD i = x.getLsbD ((i + n) % 32)) ∧
    (∀ n i : Nat, 0 < n → n < 32 → (shr x n).getLsbD i = x.getLsbD (i + n)) ∧
    (∀ i : Nat, i < 32 → (ch x y z).getLsbD i = if x.getLsbD i then y.getLsbD i else z.getLsbD i) ∧
    (∀ i : Nat, i < 32 →
      (maj x y z).getLsbD i = if x.getLsbD i = y.getLsbD i then x.getLsbD i else z.getLsbD i) ∧
    bsig0 x = rotr x 2 ^^^ rotr x 13 ^^^ rotr x 22 ∧ bsig1 x = rotr x 6 ^^^ rotr x 11 ^^^ rotr x 25 ∧
    ssig0 x = rotr x 7 ^^^ rotr x 18 ^^^ shr x 3 ∧ ssig1 x = rotr x 17 ^^^ rotr x 19 ^^^ shr x 10

/-- R62: the 64 schedule words, the first 16 the big-endian words of the block, the rest by the recurrence. -/
def Obligations.MessageScheduleRecurrence : Prop :=
  ∀ b : Block, (messageSchedule b).length = 64 ∧
    (∀ t : Fin 16, bytes32 ((messageSchedule b).getD t 0) = (b.toList.drop (4 * t.val)).take 4) ∧
    ∀ t, 16 ≤ t → t < 64 →
      (messageSchedule b).getD t 0 =
        ssig1 ((messageSchedule b).getD (t - 2) 0) + (messageSchedule b).getD (t - 7) 0 +
          ssig0 ((messageSchedule b).getD (t - 15) 0) + (messageSchedule b).getD (t - 16) 0

/-- R63 and R64: from the input state, 64 rounds with the round constants and schedule words in order, each reading the
values from before it, then the feed-forward. -/
def Obligations.CompressionRounds : Prop :=
  ∀ (s : DigestState) (b : Block), ∃ v : Nat → Working,
    v 0 = { a := s[0], b := s[1], c := s[2], d := s[3], e := s[4], f := s[5], g := s[6], h := s[7] } ∧
    (∀ t, t < 64 →
      let t1 := (v t).h + bsig1 (v t).e + ch (v t).e (v t).f (v t).g + roundConstants.getD t 0 +
        (messageSchedule b).getD t 0
      let t2 := bsig0 (v t).a + maj (v t).a (v t).b (v t).c
      v (t + 1) = { a := t1 + t2, b := (v t).a, c := (v t).b, d := (v t).c, e := (v t).d + t1, f := (v t).e,
                    g := (v t).f, h := (v t).g }) ∧
    compress s b = #v[s[0] + (v 64).a, s[1] + (v 64).b, s[2] + (v 64).c, s[3] + (v 64).d, s[4] + (v 64).e,
      s[5] + (v 64).f, s[6] + (v 64).g, s[7] + (v 64).h]

/-! ## The Digest Engine -/

/-- R72: ERST, its encoding, its effect from any lifecycle state, its one fault, and that two in a row leave the same
state as one, SPOS apart. -/
def Obligations.ErstResetsTheEngine : Prop :=
  ∀ (s : State) (e : EngineId),
    encode (.erst e) = bytes32 ((0x01000000 : Word) ||| (e.bit.setWidth 32 <<< 16)) ∧
    (s.hs = true → exec (.erst e) s = .next (s.afterFault 5 (Instr.erst e).header)) ∧
    (s.hs = false → ∃ t u, exec (.erst e) s = .next t ∧
      t = { s.setEngine e { st := .accum, h := initialState, buf := (s.engine e).buf, occ := 0, len := 0 } with
              spos := s.spos + 4 } ∧
      exec (.erst e) t = .next u ∧ u = { t with spos := t.spos + 4 })

/-- R73: EABS, its encoding, its effect and its faults. In message terms: the buffered bytes followed by the payload are
compressed in `floor((OCC + L) / 64)` whole blocks, and the tail stays in the buffer. A zero-length EABS changes nothing
but SPOS, the whole buffer included. -/
def Obligations.EabsAbsorbsThePayload : Prop :=
  ∀ (s : State) (e : EngineId) (data : List Byte),
    encode (.eabs e data) =
      bytes32 ((0x02000000 : Word) ||| (e.bit.setWidth 32 <<< 16)) ++ bytes32 (BitVec.ofNat 32 data.length) ++ data ∧
    (s.hs = true → exec (.eabs e data) s = .next (s.afterFault 5 (Instr.eabs e data).header)) ∧
    (s.hs = false → (s.engine e).st = .uninit → exec (.eabs e data) s = .next (s.afterFault 3 (Instr.eabs e data).header)) ∧
    (s.hs = false → (s.engine e).st = .final → exec (.eabs e data) s = .next (s.afterFault 4 (Instr.eabs e data).header)) ∧
    (s.hs = false → (s.engine e).st = .accum → 2 ^ 61 - 1 < (s.engine e).len.toNat + data.length →
      exec (.eabs e data) s = .next (s.afterFault 9 (Instr.eabs e data).header)) ∧
    (s.hs = false → (s.engine e).st = .accum → (s.engine e).occ.toNat ≤ 63 →
      (s.engine e).len.toNat + data.length ≤ 2 ^ 61 - 1 →
      ∃ g : Engine,
        exec (.eabs e data) s =
          .next { s.setEngine e g with spos := s.spos + BitVec.ofNat 64 (8 + data.length) } ∧
        g.st = .accum ∧ g.len.toNat = (s.engine e).len.toNat + data.length ∧
        (let all := (s.engine e).buf.toList.take (s.engine e).occ.toNat ++ data
        let n := ((s.engine e).occ.toNat + data.length) / 64
        g.h = compressBlocks n (s.engine e).h all ∧ g.occ.toNat = all.length % 64 ∧
          g.buf.toList.take g.occ.toNat = all.drop (64 * n))) ∧
    (s.hs = false → (s.engine e).st = .accum → (s.engine e).occ.toNat ≤ 63 → (s.engine e).len.toNat ≤ 2 ^ 61 - 1 →
      exec (.eabs e []) s = .next { s with spos := s.spos + 8 })

/-- R68: the pad has the content given there, ends the message on a whole block, one when `r <= 55` and two when
`r >= 56`, and the bit length is exact. -/
def Obligations.PadFillsWholeBlocks : Prop :=
  ∀ (r : Nat) (len : DWord), r ≤ 63 → len.toNat ≤ 2 ^ 61 - 1 →
    ∃ z, z < 64 ∧ (r + 1 + z) % 64 = 56 ∧ padBytes r len = [0x80] ++ zeros z ++ bytes64 (8 * len) ∧
      r + (padBytes r len).length = (if r ≤ 55 then 64 else 128) ∧ (8 * len).toNat = 8 * len.toNat

/-- R75 and R69: EFIN, its encoding, its effect and its faults. The pad drives exactly one compression when `OCC <= 55`
and exactly two when `OCC >= 56`, and the eight words go to DOUT big-endian. -/
def Obligations.EfinFinalizesTheEngine : Prop :=
  ∀ (s : State) (e : EngineId),
    encode (.efin e) = bytes32 ((0x03000000 : Word) ||| (e.bit.setWidth 32 <<< 16)) ∧
    (s.hs = true → exec (.efin e) s = .next (s.afterFault 5 (Instr.efin e).header)) ∧
    (s.hs = false → (s.engine e).st = .uninit → exec (.efin e) s = .next (s.afterFault 3 (Instr.efin e).header)) ∧
    (s.hs = false → (s.engine e).st = .final → exec (.efin e) s = .next (s.afterFault 4 (Instr.efin e).header)) ∧
    (s.hs = false → (s.engine e).st = .accum → (s.engine e).occ.toNat ≤ 63 → (s.engine e).len.toNat ≤ 2 ^ 61 - 1 →
      ∃ (g : Engine) (d : Vector Byte 32),
        exec (.efin e) s = .next { s.setEngine e g with dout := d, spos := s.spos + 4 } ∧
        g.st = .final ∧ g.occ = 0 ∧ g.len = (s.engine e).len ∧
        g.h = compressBlocks (if (s.engine e).occ.toNat ≤ 55 then 1 else 2) (s.engine e).h
          ((s.engine e).buf.toList.take (s.engine e).occ.toNat ++
            padFor (s.engine e).occ.toNat (s.engine e).len.toNat) ∧
        d.toList = g.h.toList.flatMap bytes32)

/-- The digest of an engine is the SHA-256 of its message: EFIN on an ACCUM engine that stands for `m` (R22) puts
`sha256(m)` in DOUT. -/
def Obligations.EfinYieldsDigestOfMessage : Prop :=
  ∀ (s : State) (e : EngineId) (m : List Byte), s.hs = false → (s.engine e).st = .accum → (s.engine e).Represents m →
    m.length ≤ 2 ^ 61 - 1 → ∃ t, exec (.efin e) s = .next t ∧ t.dout.toList = sha256 m

/-- R70: `sha256(m)` is the fold of the compression function over the 64-byte blocks of `m ++ pad`, from IV, its eight
words big-endian. -/
def Obligations.Sha256IsTheBlockFold : Prop :=
  ∀ m : List Byte, m.length ≤ 2 ^ 61 - 1 →
    let padded := m ++ padFor (m.length % 64) m.length
    padded.length % 64 = 0 ∧
      sha256 m = (compressBlocks (padded.length / 64) initialState padded).toList.flatMap bytes32

/-- R71: absorbing `a` and then `b` leaves the same `H`, `OCC`, `LEN` and `BUF[0 .. OCC-1]` as absorbing `a ++ b`. -/
def Obligations.ChunkingInvariance : Prop :=
  ∀ (g : Engine) (a b : List Byte), g.st = .accum → g.occ.toNat ≤ 63 →
    ((g.absorb a).absorb b).h = (g.absorb (a ++ b)).h ∧ ((g.absorb a).absorb b).occ = (g.absorb (a ++ b)).occ ∧
      ((g.absorb a).absorb b).len = (g.absorb (a ++ b)).len ∧
      ((g.absorb a).absorb b).buf.toList.take (g.absorb (a ++ b)).occ.toNat =
        (g.absorb (a ++ b)).buf.toList.take (g.absorb (a ++ b)).occ.toNat

/-- The digest of a chunked message: ERST, any number of EABS and EFIN on the stream leave DOUT the SHA-256 of the
chunks' concatenation, from any state without a fault or a session (R41, R70, R71, and R56's DIGEST for one chunk). -/
def Obligations.DigestOfChunkedMessage : Prop :=
  ∀ (s : State) (e : EngineId) (chunks : List (List Byte)) (rest : List Byte), s.flt = false → s.hs = false →
    (∀ c ∈ chunks, payloadWf c = true) → chunks.flatten.length ≤ 2 ^ 61 - 1 →
    s.stream = encodeAll (.erst e :: chunks.map (Instr.eabs e) ++ [.efin e]) ++ rest →
      ∃ t, steps (chunks.length + 2) s = some t ∧ t.flt = false ∧ t.stream = rest ∧
        t.dout.toList = sha256 chunks.flatten ∧ (t.engine e).st = .final

/-! ## The HMAC driver -/

/-- R77 and R76: HKEY, its encoding, its effect and its fault. A key of more than 64 bytes is hashed first, then the key
is zero-padded to 64 bytes and XORed with the pad bytes; the engines, DOUT and EQR are untouched. -/
def Obligations.HkeyDerivesBothPads : Prop :=
  ∀ (s : State) (key : List Byte),
    encode (.hkey key) = bytes32 0x10000000 ++ bytes32 (BitVec.ofNat 32 key.length) ++ key ∧
    (s.hs = true → exec (.hkey key) s = .next (s.afterFault 8 0x10000000)) ∧
    (s.hs = false →
      ∃ p q : Block,
        exec (.hkey key) s =
          .next { s with ipad := p, opad := q, kv := true, spos := s.spos + BitVec.ofNat 64 (8 + key.length) } ∧
        (let nk := if 64 < key.length then sha256 key ++ zeros 32 else key ++ zeros (64 - key.length)
        nk.length = 64 ∧ p.toList = nk.map (· ^^^ 0x36) ∧ q.toList = nk.map (· ^^^ 0x5c)))

/-- R78: HSTART, its encoding, its effect and its fault: E0 is reset whatever its state and has absorbed IPAD in one
compression, and E1 is untouched. -/
def Obligations.HstartOpensTheSession : Prop :=
  ∀ s : State,
    encode .hstart = bytes32 0x11000000 ∧
    (s.kv = false → exec .hstart s = .next (s.afterFault 6 0x11000000)) ∧
    (s.kv = true →
      ∃ g : Engine, exec .hstart s = .next { s with e0 := g, hs := true, spos := s.spos + 4 } ∧
        g.st = .accum ∧ g.h = compress initialState s.ipad ∧ g.occ = 0 ∧ g.len = 64)

/-- R79: HDATA, its encoding, its effect and its faults: E0 absorbs the fragment, and a zero-length fragment changes
nothing but SPOS. -/
def Obligations.HdataAbsorbsTheFragment : Prop :=
  ∀ (s : State) (frag : List Byte),
    encode (.hdata frag) = bytes32 0x12000000 ++ bytes32 (BitVec.ofNat 32 frag.length) ++ frag ∧
    (s.hs = false → exec (.hdata frag) s = .next (s.afterFault 7 0x12000000)) ∧
    (s.hs = true → 2 ^ 61 - 1 < s.e0.len.toNat + frag.length →
      exec (.hdata frag) s = .next (s.afterFault 9 0x12000000)) ∧
    (s.hs = true → s.e0.occ.toNat ≤ 63 → s.e0.len.toNat + frag.length ≤ 2 ^ 61 - 1 →
      ∃ g : Engine,
        exec (.hdata frag) s = .next { s with e0 := g, spos := s.spos + BitVec.ofNat 64 (8 + frag.length) } ∧
        g.st = s.e0.st ∧ g.len.toNat = s.e0.len.toNat + frag.length ∧
        (let all := s.e0.buf.toList.take s.e0.occ.toNat ++ frag
        g.h = compressBlocks (all.length / 64) s.e0.h all ∧ g.occ.toNat = all.length % 64 ∧
          g.buf.toList.take g.occ.toNat = all.drop (64 * (all.length / 64)))) ∧
    (s.hs = true → s.e0.occ.toNat ≤ 63 → s.e0.len.toNat ≤ 2 ^ 61 - 1 →
      exec (.hdata []) s = .next { s with spos := s.spos + 8 })

/-- R80: HFIN, its encoding, its effect and its fault: the inner digest is E0's after its pad, the tag is the SHA-256 of
OPAD followed by it, both engines end FINAL, the session closes and the key stays. -/
def Obligations.HfinProducesTheTag : Prop :=
  ∀ s : State,
    encode .hfin = bytes32 0x13000000 ∧
    (s.hs = false → exec .hfin s = .next (s.afterFault 7 0x13000000)) ∧
    (s.hs = true → s.e0.occ.toNat ≤ 63 → s.e0.len.toNat ≤ 2 ^ 61 - 1 →
      ∃ (g0 g1 : Engine) (d : Vector Byte 32),
        exec .hfin s = .next { s with e0 := g0, e1 := g1, dout := d, hs := false, spos := s.spos + 4 } ∧
        g0.st = .final ∧ g0.occ = 0 ∧ g0.len = s.e0.len ∧
        g0.h = compressBlocks (if s.e0.occ.toNat ≤ 55 then 1 else 2) s.e0.h
          (s.e0.buf.toList.take s.e0.occ.toNat ++ padFor s.e0.occ.toNat s.e0.len.toNat) ∧
        g1.st = .final ∧ g1.occ = 0 ∧ g1.len = 96 ∧ g1.h.toList.flatMap bytes32 = d.toList ∧
        d.toList = sha256 (s.opad.toList ++ g0.h.toList.flatMap bytes32))

/-- R81: HKEY, HSTART, any number of HDATA and HFIN on the stream leave DOUT the HMAC-SHA256 tag of the fragments'
concatenation, from any state without a fault or a session: it depends on the key and the concatenation alone. -/
def Obligations.HmacTagOfKeyAndFragments : Prop :=
  ∀ (s : State) (key : List Byte) (frags : List (List Byte)) (rest : List Byte), s.flt = false → s.hs = false →
    payloadWf key = true → (∀ f ∈ frags, payloadWf f = true) → 64 + frags.flatten.length ≤ 2 ^ 61 - 1 →
    s.stream = encodeAll (Pseudo.hmac key frags).expand ++ rest →
      ∃ t, steps (frags.length + 3) s = some t ∧ t.flt = false ∧ t.stream = rest ∧ t.hs = false ∧ t.kv = true ∧
        (let nk := normKey key
        t.dout.toList = sha256 (nk.map (· ^^^ 0x5c) ++ sha256 (nk.map (· ^^^ 0x36) ++ frags.flatten)))

/-- R56: after DIGEST the digest is in DOUT, after HDIGEST (with a key held) and HMAC the tag is in DOUT, `k >= 0`
fragments, each expansion run from the stream in a state without a fault or a session. -/
def Obligations.PseudoInstructionResults : Prop :=
  ∀ (s : State) (rest : List Byte), s.flt = false → s.hs = false →
    (∀ (e : EngineId) (m : List Byte), payloadWf m = true →
      s.stream = encodeAll [.erst e, .eabs e m, .efin e] ++ rest →
      (Pseudo.digest e m).expand = [.erst e, .eabs e m, .efin e] ∧
        ∃ t, steps 3 s = some t ∧ t.flt = false ∧ t.stream = rest ∧ t.dout.toList = sha256 m) ∧
    (∀ frags : List (List Byte), s.kv = true → (∀ f ∈ frags, payloadWf f = true) →
      64 + frags.flatten.length ≤ 2 ^ 61 - 1 →
      s.stream = encodeAll (.hstart :: frags.map Instr.hdata ++ [.hfin]) ++ rest →
      (Pseudo.hdigest frags).expand = .hstart :: frags.map Instr.hdata ++ [.hfin] ∧
        ∃ t, steps (frags.length + 2) s = some t ∧ t.flt = false ∧ t.stream = rest ∧
          t.dout.toList = sha256 (s.opad.toList ++ sha256 (s.ipad.toList ++ frags.flatten))) ∧
    ∀ (key : List Byte) (frags : List (List Byte)), payloadWf key = true → (∀ f ∈ frags, payloadWf f = true) →
      64 + frags.flatten.length ≤ 2 ^ 61 - 1 →
      s.stream = encodeAll (.hkey key :: .hstart :: frags.map Instr.hdata ++ [.hfin]) ++ rest →
      (Pseudo.hmac key frags).expand = .hkey key :: (Pseudo.hdigest frags).expand ∧
        ∃ t, steps (frags.length + 3) s = some t ∧ t.flt = false ∧ t.stream = rest ∧
          t.dout.toList = sha256 ((normKey key).map (· ^^^ 0x5c) ++ sha256 ((normKey key).map (· ^^^ 0x36) ++ frags.flatten))

/-! ## The Equality Checker -/

/-- R83: EQ, its encoding and its effect: EQR is 1 exactly when the operands are equal, and nothing else is written. -/
def Obligations.EqComparesOperands : Prop :=
  ∀ (s : State) (a b : List Byte),
    encode (.eqCheck a b) =
      bytes32 0x20000000 ++ bytes32 (BitVec.ofNat 32 a.length) ++ a ++ bytes32 (BitVec.ofNat 32 b.length) ++ b ∧
    exec (.eqCheck a b) s =
      .next { s with eqr := decide (a = b), spos := s.spos + BitVec.ofNat 64 (12 + a.length + b.length) } ∧
    (a.length = b.length →
      (eqAccumulate a b = 0 ↔ ∀ i, i < a.length → a.getD i 0 ^^^ b.getD i 0 = 0))

/-! ## Whole-machine rules -/

/-- R19: the lifecycle states' codes, and the transitions of the source's state machine: a completed command moves an
engine only as stated, and no command moves one back to UNINIT. -/
def Obligations.LifecycleTransitions : Prop :=
  (Lifecycle.uninit.code = 0 ∧ Lifecycle.accum.code = 1 ∧ Lifecycle.final.code = 2) ∧
  (∀ s : State, ∀ e, (s.hardReset.engine e).st = .uninit) ∧
  ∀ (i : Instr) (s : State) (e : EngineId), s.flt = false → ∃ t, exec i s = .next t ∧
    (t.flt = true → t.engine e = s.engine e) ∧
    (t.flt = false → (t.engine e).st = lifecycleAfter i e (s.engine e).st) ∧
    ((s.engine e).st ≠ .uninit → (t.engine e).st ≠ .uninit)

/-- The engines share no state: a command that does not act on an engine leaves every field of it alone (R18). -/
def Obligations.OtherEngineUntouched : Prop :=
  ∀ (i : Instr) (s t : State) (e : EngineId), exec i s = .next t → actsOn i e = false → t.engine e = s.engine e

/-- Each result is written by its own commands only: the pads and KV by HKEY, HS by HSTART and HFIN, EQR by EQ, DOUT by
EFIN and HFIN, and the fault fields by a fault (R14, R24, R25, R26, R27, R28). KV stays 1 and FLT stays 1. -/
def Obligations.ResultsWrittenOnlyByTheirCommands : Prop :=
  ∀ (i : Instr) (s t : State), exec i s = .next t →
    ((∀ key, i ≠ .hkey key) → t.ipad = s.ipad ∧ t.opad = s.opad ∧ t.kv = s.kv) ∧
    (s.kv = true → t.kv = true) ∧
    (i ≠ .hstart → i ≠ .hfin → t.hs = s.hs) ∧
    ((∀ a b, i ≠ .eqCheck a b) → t.eqr = s.eqr) ∧
    ((∀ e, i ≠ .efin e) → i ≠ .hfin → t.dout = s.dout) ∧
    (t.flt = false → s.flt = false ∧ t.fcause = s.fcause ∧ t.fhdr = s.fhdr) ∧ (s.flt = true → t.flt = true)

/-- Every command is legal at all times, subject only to its faults, and a fault is a next state: no command is refused
and none stops the core (R92). -/
def Obligations.EveryCommandHasANextState : Prop :=
  ∀ (i : Instr) (s : State), s.flt = false → ∃ t, exec i s = .next t ∧
    (t.flt = true ∧ t.spos = s.spos ∨ t.flt = false ∧ t.spos = s.spos + BitVec.ofNat 64 i.size)

/-- The length counter grows monotonically until the engine is reset (R21). -/
def Obligations.LengthGrowsUntilEngineReset : Prop :=
  ∀ (i : Instr) (s t : State) (e : EngineId), s.Inv → exec i s = .next t → i ≠ .erst e → i ≠ .hstart → i ≠ .hfin →
    (s.engine e).st ≠ .uninit →
      (s.engine e).len.toNat ≤ (t.engine e).len.toNat ∧ (t.engine e).len.toNat ≤ 2 ^ 61 - 1

/-- The reset state meets the invariant. -/
def Obligations.ResetMeetsInvariant : Prop := State.reset.Inv

/-- The invariant (R20, R21, R22, R24, R28, R69, R82, R86) is kept by every step. -/
def Obligations.StepKeepsInvariant : Prop := ∀ s t : State, s.Inv → step s = .next t → t.Inv

/-- The invariant is kept by every interaction of the host (R97). -/
def Obligations.HostActionsKeepInvariant : Prop := ∀ (s : State) (act : HostAction), s.Inv → (s.hostAct act).1.Inv

/-- R22: the message an engine stands for. ERST starts the empty message; a completed EABS appends its payload; HSTART
starts the message IPAD and a completed HDATA appends its fragment. -/
def Obligations.EnginesFollowTheirMessages : Prop :=
  ∀ (s : State) (e : EngineId) (m data : List Byte),
    (s.hs = false → ∃ t, exec (.erst e) s = .next t ∧ (t.engine e).Represents []) ∧
    (s.hs = false → (s.engine e).st = .accum → (s.engine e).Represents m → m.length + data.length ≤ 2 ^ 61 - 1 →
      ∃ t, exec (.eabs e data) s = .next t ∧ t.flt = s.flt ∧ (t.engine e).Represents (m ++ data)) ∧
    (s.kv = true → ∃ t, exec .hstart s = .next t ∧ t.e0.Represents s.ipad.toList) ∧
    (s.hs = true → s.e0.Represents m → m.length + data.length ≤ 2 ^ 61 - 1 →
      ∃ t, exec (.hdata data) s = .next t ∧ t.flt = s.flt ∧ t.e0.Represents (m ++ data))

/-- R95: the values that reset leaves unspecified cannot be observed, and neither can stale buffer bytes or the fields of
an engine that is not ACCUM (R20, R69). From two states that differ only there, a step gives two such states again, or
holds for the same reason, and every read agrees. -/
def Obligations.UnspecifiedValuesAreUnobservable : Prop :=
  ∀ s s' : State, s.Inv → s.SameMeaning s' →
    (∀ a, s.readPort a = s'.readPort a) ∧
    (∀ t, step s = .next t → ∃ t', step s' = .next t' ∧ t.SameMeaning t') ∧
    (∀ r, step s = .fault r → step s' = .fault r)
end

