-- ==== Sys2Proof/Laws/Bytes.lean ====
section
/-! SUPPORT. Laws of the byte-order helpers (R10), of `byteVec` and of `compressBlocks`. -/

namespace Sys2Proof

theorem be32_bytes32 (w : Word) :
    be32 (w.extractLsb' 24 8) (w.extractLsb' 16 8) (w.extractLsb' 8 8) (w.extractLsb' 0 8) = w := by
  apply BitVec.eq_of_getLsbD_eq
  intro i hi
  simp only [be32, BitVec.getLsbD_append, BitVec.getLsbD_extractLsb']
  split_ifs with h1 h2 h3
  · simp [h1]
  · simp [show i - 8 < 8 by omega, show 8 + (i - 8) = i by omega]
  · simp [show i - 8 - 8 < 8 by omega, show 16 + (i - 8 - 8) = i by omega]
  · simp [show i - 8 - 8 - 8 < 8 by omega, show 24 + (i - 8 - 8 - 8) = i by omega]

theorem bytes32_be32 (b0 b1 b2 b3 : Byte) : bytes32 (be32 b0 b1 b2 b3) = [b0, b1, b2, b3] := by
  simp only [bytes32, be32, List.cons.injEq, and_true]
  refine ⟨?_, ?_, ?_, ?_⟩ <;>
    · ext i hi
      simp only [BitVec.getElem_extractLsb', BitVec.getLsbD_append]
      split_ifs <;> first | omega | (rw [← BitVec.getLsbD_eq_getElem]; congr 1; omega)

@[simp] theorem bytes32_length (w : Word) : (bytes32 w).length = 4 := rfl

@[simp] theorem bytes64_length (v : DWord) : (bytes64 v).length = 8 := rfl

@[simp] theorem zeros_length (n : Nat) : (zeros n).length = n := List.length_replicate

@[simp] theorem readWord_bytes32 (w : Word) (rest : List Byte) :
    readWord (bytes32 w ++ rest) = some (w, rest) := by
  simp only [bytes32, List.cons_append, List.nil_append, readWord, be32_bytes32]

theorem readWord_eq_some {bs rest : List Byte} {w : Word} (h : readWord bs = some (w, rest)) :
    bs = bytes32 w ++ rest := by
  match bs, h with
  | b0 :: b1 :: b2 :: b3 :: r, h =>
    simp only [readWord, Option.some.injEq, Prod.mk.injEq] at h
    obtain ⟨rfl, rfl⟩ := h
    simp [bytes32_be32]

theorem byteVec_toList {n : Nat} {bs : List Byte} (h : n ≤ bs.length) : (byteVec n bs).toList = bs.take n := by
  apply List.ext_getElem
  · simpa using h
  · intro i h1 h2
    have hi : i < bs.length := by simp at h1; omega
    simp [byteVec, List.getElem?_eq_getElem hi]

theorem byteVec_append {n : Nat} {bs cs : List Byte} (h : n ≤ bs.length) : byteVec n (bs ++ cs) = byteVec n bs := by
  apply Vector.toList_inj.mp
  rw [byteVec_toList h, byteVec_toList (by simp; omega), List.take_append_of_le_length h]

theorem byteVec_of_toList {n : Nat} (v : Vector Byte n) : byteVec n v.toList = v := by
  apply Vector.toList_inj.mp
  rw [byteVec_toList (by simp)]
  simp

namespace Machine

theorem compressBlocks_append (q : Nat) (s : DigestState) {bs : List Byte} (cs : List Byte)
    (h : 64 * q ≤ bs.length) : compressBlocks q s (bs ++ cs) = compressBlocks q s bs := by
  induction q generalizing s bs with
  | zero => rfl
  | succ q ih =>
    simp only [compressBlocks]
    rw [byteVec_append (by omega), List.drop_append_of_le_length (by omega), ih _ (by simp; omega)]

theorem compressBlocks_add (p q : Nat) (s : DigestState) (bs : List Byte) :
    compressBlocks (p + q) s bs = compressBlocks q (compressBlocks p s bs) (bs.drop (64 * p)) := by
  induction p generalizing s bs with
  | zero => simp [compressBlocks]
  | succ p ih =>
    rw [Nat.succ_add_eq_add_succ, Nat.add_succ]
    simp only [compressBlocks, ih, List.drop_drop]
    congr 2
    omega

@[simp] theorem digestBytes_length (s : DigestState) : (digestBytes s).length = 32 := by
  simp [digestBytes, List.length_flatMap]

end Machine

end Sys2Proof
end

