-- ==== Sys2Proof/Laws/Decode.lean ====
section
/-! SUPPORT. Laws of the decoder's parts: reading a payload back, and the header's fields. -/

namespace Sys2Proof

theorem Opcode.ofByte_code (op : Opcode) : Opcode.ofByte op.code = some op := by cases op <;> decide

theorem Opcode.code_of_ofByte {b : Byte} {op : Opcode} (h : Opcode.ofByte b = some op) : op.code = b := by
  have := List.find?_some h
  simpa using this

theorem EngineId.ofBit_bit (e : EngineId) : EngineId.ofBit e.bit = e := by cases e <;> rfl

/-- A payload reads back with the bytes after it (R47). -/
theorem readPayload_encodePayload {data : List Byte} (h : payloadWf data = true) (rest : List Byte) :
    readPayload (encodePayload data ++ rest) = some (data, rest) := by
  have hlen : data.length % 2 ^ 32 = data.length := by
    have : data.length < 2 ^ 32 := of_decide_eq_true h
    omega
  simp only [readPayload, encodePayload, List.append_assoc, readWord_bytes32, Option.bind_some, streamRead,
    BitVec.toNat_ofNat, hlen, List.length_append, Nat.le_add_right, if_true, List.take_left', List.drop_left']

theorem readPayload_eq_some {bs data rest : List Byte} (h : readPayload bs = some (data, rest)) :
    payloadWf data = true ∧ bs = encodePayload data ++ rest := by
  unfold readPayload at h
  cases hw : readWord bs with
  | none => simp [hw] at h
  | some p =>
    obtain ⟨len, r⟩ := p
    have hl := len.isLt
    simp only [hw, Option.bind_some, streamRead] at h
    split_ifs at h with hle
    simp only [Option.some.injEq, Prod.mk.injEq] at h
    obtain ⟨rfl, rfl⟩ := h
    have htl : (r.take len.toNat).length = len.toNat := by simp; omega
    refine ⟨by simpa [payloadWf, Config.payloadBound, htl] using hl, ?_⟩
    rw [readWord_eq_some hw, encodePayload, htl, BitVec.ofNat_toNat]
    simp

theorem opcField_mkHeader (op : Opcode) (e : BitVec 1) : opcField (mkHeader op e) = op.code := by
  cases op <;> revert e <;> decide

theorem eField_mkHeader (op : Opcode) (e : BitVec 1) : eField (mkHeader op e) = e := by
  cases op <;> revert e <;> decide

theorem reservedSet_mkHeader {op : Opcode} {e : BitVec 1} (h : op.takesEngine = true ∨ e = 0) :
    reservedSet op (mkHeader op e) = false := by
  revert h; cases op <;> revert e <;> decide

theorem mkHeader_of_fields {op : Opcode} {hdr : Word} (hop : opcField hdr = op.code) (hr : reservedSet op hdr = false) :
    hdr = mkHeader op (eField hdr) := by
  simp only [reservedSet, Bool.or_eq_false_iff, bne_eq_false_iff_eq] at hr
  obtain ⟨⟨h1, h0⟩, -⟩ := hr
  simp only [mkHeader, ← hop, ← h1, ← h0, opcField, rsv1Field, rsv0Field, eField]
  apply BitVec.eq_of_getLsbD_eq
  intro i hi
  simp only [BitVec.getLsbD_append, BitVec.getLsbD_extractLsb']
  split_ifs with c1 c2 c3
  · simp [c1]
  · simp [show i - 16 < 1 by omega, show 16 + (i - 16) = i by omega]
  · simp [show i - 16 - 1 < 7 by omega, show 17 + (i - 16 - 1) = i by omega]
  · simp [show i - 16 - 1 - 7 < 8 by omega, show 24 + (i - 16 - 1 - 7) = i by omega]

end Sys2Proof
end

