-- ==== Sys2Proof/Laws/Engine.lean ====
section
/-! SUPPORT. What the Digest Engine's procedures do (R66 to R70, R22): one spec lemma for each, said of the byte
sequence that the buffered bytes and the new data form together. -/

namespace Sys2Proof.Machine

theorem writeBytes_toList {buf : Block} {pos : Nat} {bs : List Byte} (h : pos + bs.length ≤ 64) :
    (writeBytes buf pos bs).toList = buf.toList.take pos ++ bs ++ buf.toList.drop (pos + bs.length) := by
  apply List.ext_getElem
  · simp; omega
  · intro i h1 h2
    have hi : i < 64 := by simpa using h1
    simp only [writeBytes, Vector.getElem_toList, Vector.getElem_ofFn, List.getElem_append, List.length_append,
      List.length_take, Vector.length_toList, List.getElem_take, List.getElem_drop]
    have hp : min pos 64 = pos := by omega
    simp only [hp]
    split_ifs <;> first | omega | skip
    · rw [List.getD_eq_getElem _ _ (by omega)]
    · rfl
    · have : pos + bs.length + (i - (pos + bs.length)) = i := by omega
      simp only [this]
      rfl

/-- The bytes an engine holds that are not compressed yet. -/
def Engine.pending (g : Engine) : List Byte := g.buf.toList.take g.occ.toNat

theorem Engine.pending_length {g : Engine} (h : g.occ.toNat ≤ 63) : g.pending.length = g.occ.toNat := by
  simp [pending]; omega

theorem occ_ne_zero {g : Engine} : g.occ ≠ 0 ↔ 0 < g.occ.toNat := by
  rw [Ne, ← BitVec.toNat_inj]
  simp

/-- Steps (3) and (4) of R66, on an empty buffer. -/
theorem Engine.absorbRest_spec {g : Engine} (data : List Byte) (h : g.occ = 0) :
    (g.absorbRest data).h = compressBlocks (data.length / 64) g.h data ∧
    (g.absorbRest data).occ.toNat = data.length % 64 ∧
    (g.absorbRest data).pending = data.drop (64 * (data.length / 64)) ∧
    (g.absorbRest data).st = g.st ∧ (g.absorbRest data).len = g.len := by
  have htail : (data.drop (64 * (data.length / 64))).length = data.length % 64 := by simp; omega
  unfold absorbRest pending
  simp only [htail]
  by_cases hz : data.length % 64 = 0
  · have : data.drop (64 * (data.length / 64)) = [] := List.drop_eq_nil_of_le (by omega)
    simp [hz, h, this]
  · have hlt : data.length % 64 < 64 := by omega
    have hmod : data.length % 64 % 128 = data.length % 64 := by omega
    simp only [hz, if_false, BitVec.toNat_ofNat, Nat.reducePow, hmod, and_true, true_and]
    rw [writeBytes_toList (by rw [htail]; omega)]
    simp only [List.take_zero, List.nil_append]
    rw [List.take_append_of_le_length (by rw [htail]), List.take_of_length_le (by rw [htail])]

/-- `AbsorbBlocks` of R66: the pending bytes followed by `data` are compressed in whole blocks and the tail is kept. -/
theorem Engine.absorbBlocks_spec {g : Engine} (data : List Byte) (h : g.occ.toNat ≤ 63) :
    (g.absorbBlocks data).h = compressBlocks ((g.pending ++ data).length / 64) g.h (g.pending ++ data) ∧
    (g.absorbBlocks data).occ.toNat = (g.pending ++ data).length % 64 ∧
    (g.absorbBlocks data).pending = (g.pending ++ data).drop (64 * ((g.pending ++ data).length / 64)) ∧
    (g.absorbBlocks data).st = g.st ∧ (g.absorbBlocks data).len = g.len := by
  have hpl := pending_length h
  by_cases h0 : g.occ = 0
  · have hp : g.pending = [] := by simp [pending, h0]
    simpa [absorbBlocks, fill, fillCount, h0, hp] using absorbRest_spec data h0
  · have hpos : 0 < g.occ.toNat := occ_ne_zero.mp h0
    have hlen : (g.pending ++ data).length = g.occ.toNat + data.length := by simp [hpl]
    by_cases hfull : 64 ≤ g.occ.toNat + data.length
    · have hk : min (64 - g.occ.toNat) data.length = 64 - g.occ.toNat := by omega
      have hsum : g.occ.toNat + (64 - g.occ.toNat) = 64 := by omega
      have hbuf : writeBytes g.buf g.occ.toNat (data.take (64 - g.occ.toNat)) = byteVec 64 (g.pending ++ data) := by
        apply Vector.toList_inj.mp
        have htl : (data.take (64 - g.occ.toNat)).length = 64 - g.occ.toNat := by simp; omega
        rw [writeBytes_toList (by omega), byteVec_toList (by omega), htl, hsum, List.drop_of_length_le (by simp),
          List.append_nil, List.take_append, hpl, List.take_of_length_le (l := g.pending) (by omega)]
        rfl
      have hdrop : data.drop (64 - g.occ.toNat) = (g.pending ++ data).drop 64 := by
        rw [List.drop_append, hpl, List.drop_of_length_le (l := g.pending) (by omega), List.nil_append]
      have hfill : g.fill data =
          { g with h := compress g.h (byteVec 64 (g.pending ++ data)), buf := byteVec 64 (g.pending ++ data), occ := 0 } := by
        simp only [fill, fillCount, h0, if_false, hk, hsum, if_true, hbuf]
      have hrest : data.drop (g.fillCount data) = (g.pending ++ data).drop 64 := by
        simp only [fillCount, h0, if_false, hk, hdrop]
      have hq : (g.pending ++ data).length / 64 = 1 + ((g.pending ++ data).drop 64).length / 64 := by
        simp only [List.length_drop]; omega
      obtain ⟨e1, e2, e3, e4, e5⟩ := absorbRest_spec (g := g.fill data) ((g.pending ++ data).drop 64) (by rw [hfill])
      simp only [absorbBlocks, hrest]
      refine ⟨?_, ?_, ?_, ?_, ?_⟩
      · rw [e1, hfill, hq, compressBlocks_add]
        rfl
      · rw [e2]; simp only [List.length_drop]; omega
      · rw [e3, List.drop_drop, hq]; congr 1; omega
      · rw [e4, hfill]
      · rw [e5, hfill]
    · have hk : min (64 - g.occ.toNat) data.length = data.length := by omega
      have hne : g.occ.toNat + data.length ≠ 64 := by omega
      have hmod : (g.occ.toNat + data.length) % 128 = g.occ.toNat + data.length := by omega
      have hq : (g.pending ++ data).length / 64 = 0 := by omega
      have hr : (g.pending ++ data).length % 64 = g.occ.toNat + data.length := by omega
      simp only [absorbBlocks, fill, fillCount, h0, if_false, hk, hne, List.drop_length, List.take_length, absorbRest,
        List.length_nil, List.drop_nil, Nat.zero_div, if_true, compressBlocks, pending, BitVec.toNat_ofNat,
        Nat.reducePow, hmod, and_true]
      rw [show List.take g.occ.toNat g.buf.toList = g.pending from rfl, hq, hr]
      refine ⟨rfl, rfl, ?_⟩
      rw [writeBytes_toList (by omega), show List.take g.occ.toNat g.buf.toList = g.pending from rfl]
      rw [List.take_append_of_le_length (by omega), List.take_of_length_le (by omega)]
      simp

/-- `Absorb` of R67: AbsorbBlocks, and the length counter grows by the data's length. -/
theorem Engine.absorb_spec {g : Engine} (data : List Byte) (h : g.occ.toNat ≤ 63) :
    (g.absorb data).h = compressBlocks ((g.pending ++ data).length / 64) g.h (g.pending ++ data) ∧
    (g.absorb data).occ.toNat = (g.pending ++ data).length % 64 ∧
    (g.absorb data).pending = (g.pending ++ data).drop (64 * ((g.pending ++ data).length / 64)) ∧
    (g.absorb data).st = g.st ∧ (g.absorb data).len = g.len + BitVec.ofNat 64 data.length :=
  absorbBlocks_spec (g := { g with len := g.len + BitVec.ofNat 64 data.length }) data h

theorem Engine.absorbRest_frame (g : Engine) (data : List Byte) :
    (g.absorbRest data).st = g.st ∧ (g.absorbRest data).len = g.len := by
  unfold absorbRest; dsimp only; split_ifs <;> exact ⟨rfl, rfl⟩

theorem Engine.fill_frame (g : Engine) (data : List Byte) : (g.fill data).st = g.st ∧ (g.fill data).len = g.len := by
  unfold fill; dsimp only; split_ifs <;> exact ⟨rfl, rfl⟩

@[simp] theorem Engine.absorbBlocks_st (g : Engine) (data : List Byte) : (g.absorbBlocks data).st = g.st :=
  (absorbRest_frame _ _).1.trans (fill_frame _ _).1

@[simp] theorem Engine.absorbBlocks_len (g : Engine) (data : List Byte) : (g.absorbBlocks data).len = g.len :=
  (absorbRest_frame _ _).2.trans (fill_frame _ _).2

@[simp] theorem Engine.absorb_st (g : Engine) (data : List Byte) : (g.absorb data).st = g.st := absorbBlocks_st _ _

@[simp] theorem Engine.absorb_len (g : Engine) (data : List Byte) :
    (g.absorb data).len = g.len + BitVec.ofNat 64 data.length := absorbBlocks_len _ _

@[simp] theorem Engine.finalize_st (g : Engine) : g.finalize.st = .final := rfl

@[simp] theorem Engine.finalize_len (g : Engine) : g.finalize.len = g.len := absorbBlocks_len _ _

theorem Engine.absorb_occ_le {g : Engine} (data : List Byte) (h : g.occ.toNat ≤ 63) :
    (g.absorb data).occ.toNat ≤ 63 := by
  rw [(absorb_spec data h).2.1]; omega

theorem Engine.reset_represents (g : Engine) : g.reset.Represents [] := by
  constructor <;> simp [reset, compressBlocks]

theorem Engine.Represents.occ_le {g : Engine} {m : List Byte} (h : g.Represents m) : g.occ.toNat ≤ 63 := by
  rw [h.occ]; omega

theorem Engine.Represents.pending_eq {g : Engine} {m : List Byte} (h : g.Represents m) :
    g.pending = m.drop (64 * (m.length / 64)) := by
  rw [pending, h.buf, h.occ]; congr 1; omega

/-- R22 is kept by Absorb: the engine then stands for the longer message. -/
theorem Engine.Represents.absorb {g : Engine} {m : List Byte} (h : g.Represents m) (data : List Byte)
    (hl : m.length + data.length ≤ Config.lmax) : (g.absorb data).Represents (m ++ data) := by
  obtain ⟨e1, e2, e3, e4, e5⟩ := absorb_spec data h.occ_le
  have hpl := pending_length h.occ_le
  have hocc := h.occ
  have happ : g.pending ++ data = (m ++ data).drop (64 * (m.length / 64)) := by
    rw [h.pending_eq, List.drop_append_of_le_length (by omega)]
  have hlmax : Config.lmax < 2 ^ 64 := by decide
  have e2' : (g.absorb data).occ.toNat = (m ++ data).length % 64 := by
    rw [e2]; simp only [List.length_append, hpl]; omega
  refine ⟨?_, e2', ?_, ?_⟩
  · rw [e5, BitVec.toNat_add, h.len, BitVec.toNat_ofNat, List.length_append]
    omega
  · rw [show List.take _ _ = (g.absorb data).pending from rfl, e3, happ, List.drop_drop, e2']
    congr 1
    simp only [List.length_append, List.length_drop]; omega
  · rw [e1, h.h, happ, ← compressBlocks_append (m.length / 64) initialState data (by omega), ← compressBlocks_add]
    congr 1
    simp only [List.length_append, List.length_drop]; omega

theorem padBytes_length (r : Nat) (len : DWord) : (padBytes r len).length = 9 + ((55 - (r : Int)) % 64).toNat := by
  simp [padBytes]; omega

/-- Finalize of R69: the pad is absorbed in whole blocks, the buffer is empty after it, and LEN is unchanged. -/
theorem Engine.finalize_spec {g : Engine} (h : g.occ.toNat ≤ 63) :
    g.finalize.h =
      compressBlocks ((g.pending ++ padBytes g.occ.toNat g.len).length / 64) g.h (g.pending ++ padBytes g.occ.toNat g.len) ∧
    g.finalize.occ = 0 ∧ g.finalize.st = .final ∧ g.finalize.len = g.len := by
  obtain ⟨e1, e2, e3, e4, e5⟩ := absorbBlocks_spec (padBytes g.occ.toNat g.len) h
  refine ⟨e1, ?_, rfl, e5⟩
  apply BitVec.eq_of_toNat_eq
  rw [show g.finalize.occ = (g.absorbBlocks (padBytes g.occ.toNat g.len)).occ from rfl, e2, List.length_append,
    pending_length h, padBytes_length]
  simp
  omega

@[simp] theorem Engine.digest_length (g : Engine) : g.digest.length = 32 := digestBytes_length _

@[simp] theorem sha256_length (m : List Byte) : (sha256 m).length = 32 := digestBytes_length _

/-- The digest depends on the engine only through its message (R22, R69). -/
theorem Engine.Represents.digest_eq {g : Engine} {m : List Byte} (h : g.Represents m) :
    g.digest = digestBytes (compressBlocks ((m ++ padBytes (m.length % 64) (BitVec.ofNat 64 m.length)).length / 64)
      initialState (m ++ padBytes (m.length % 64) (BitVec.ofNat 64 m.length))) := by
  have hlen : g.len = BitVec.ofNat 64 m.length := by rw [← h.len, BitVec.ofNat_toNat]; simp
  have hocc := h.occ
  have hpl := pending_length h.occ_le
  rw [digest, (finalize_spec h.occ_le).1, hlen, hocc]
  have happ : g.pending ++ padBytes (m.length % 64) (BitVec.ofNat 64 m.length) =
      (m ++ padBytes (m.length % 64) (BitVec.ofNat 64 m.length)).drop (64 * (m.length / 64)) := by
    rw [h.pending_eq, List.drop_append_of_le_length (by omega)]
  rw [h.h, happ, ← compressBlocks_append (m.length / 64) initialState (padBytes _ _) (by omega), ← compressBlocks_add]
  congr 2
  simp only [List.length_append, List.length_drop]; omega

/-- `sha256` is the digest of any engine that stands for the message (R70). -/
theorem Engine.Represents.digest {g : Engine} {m : List Byte} (h : g.Represents m) (hl : m.length ≤ Config.lmax) :
    g.digest = sha256 m := by
  have hm : (Engine.initial.reset.absorb m).Represents m := by
    simpa using (reset_represents Engine.initial).absorb m (by simpa using hl)
  rw [h.digest_eq, sha256, hm.digest_eq]

theorem normKey_length (key : List Byte) : (normKey key).length = 64 := by
  unfold normKey
  split_ifs <;> simp
  omega

end Sys2Proof.Machine
end

