-- ==== Sys2Proof/Laws/State.lean ====
section
/-! SUPPORT. One lemma per field per update of State: what each shared update leaves in each field. -/

namespace Sys2Proof.Machine

/-! ## The fault entry (R88, R89) -/

@[simp] theorem State.raiseFault_e0 (s : State) (c : Cause) (hdr : Word) :
    (s.raiseFault c hdr).e0 = s.e0 := rfl

@[simp] theorem State.raiseFault_e1 (s : State) (c : Cause) (hdr : Word) :
    (s.raiseFault c hdr).e1 = s.e1 := rfl

@[simp] theorem State.raiseFault_ipad (s : State) (c : Cause) (hdr : Word) :
    (s.raiseFault c hdr).ipad = s.ipad := rfl

@[simp] theorem State.raiseFault_opad (s : State) (c : Cause) (hdr : Word) :
    (s.raiseFault c hdr).opad = s.opad := rfl

@[simp] theorem State.raiseFault_kv (s : State) (c : Cause) (hdr : Word) :
    (s.raiseFault c hdr).kv = s.kv := rfl

@[simp] theorem State.raiseFault_hs (s : State) (c : Cause) (hdr : Word) :
    (s.raiseFault c hdr).hs = s.hs := rfl

@[simp] theorem State.raiseFault_eqr (s : State) (c : Cause) (hdr : Word) :
    (s.raiseFault c hdr).eqr = s.eqr := rfl

@[simp] theorem State.raiseFault_dout (s : State) (c : Cause) (hdr : Word) :
    (s.raiseFault c hdr).dout = s.dout := rfl

@[simp] theorem State.raiseFault_flt (s : State) (c : Cause) (hdr : Word) :
    (s.raiseFault c hdr).flt = true := rfl

@[simp] theorem State.raiseFault_fcause (s : State) (c : Cause) (hdr : Word) :
    (s.raiseFault c hdr).fcause = c.code := rfl

@[simp] theorem State.raiseFault_fhdr (s : State) (c : Cause) (hdr : Word) :
    (s.raiseFault c hdr).fhdr = hdr := rfl

@[simp] theorem State.raiseFault_spos (s : State) (c : Cause) (hdr : Word) :
    (s.raiseFault c hdr).spos = s.spos := rfl

@[simp] theorem State.raiseFault_stream (s : State) (c : Cause) (hdr : Word) :
    (s.raiseFault c hdr).stream = [] := rfl

@[simp] theorem State.raiseFault_engine (s : State) (c : Cause) (hdr : Word) (e : EngineId) :
    (s.raiseFault c hdr).engine e = s.engine e := by cases e <;> rfl

/-! ## Completion (R17) -/

@[simp] theorem State.complete_e0 (s : State) (n : Nat) :
    (s.complete n).e0 = s.e0 := rfl

@[simp] theorem State.complete_e1 (s : State) (n : Nat) :
    (s.complete n).e1 = s.e1 := rfl

@[simp] theorem State.complete_ipad (s : State) (n : Nat) :
    (s.complete n).ipad = s.ipad := rfl

@[simp] theorem State.complete_opad (s : State) (n : Nat) :
    (s.complete n).opad = s.opad := rfl

@[simp] theorem State.complete_kv (s : State) (n : Nat) :
    (s.complete n).kv = s.kv := rfl

@[simp] theorem State.complete_hs (s : State) (n : Nat) :
    (s.complete n).hs = s.hs := rfl

@[simp] theorem State.complete_eqr (s : State) (n : Nat) :
    (s.complete n).eqr = s.eqr := rfl

@[simp] theorem State.complete_dout (s : State) (n : Nat) :
    (s.complete n).dout = s.dout := rfl

@[simp] theorem State.complete_flt (s : State) (n : Nat) :
    (s.complete n).flt = s.flt := rfl

@[simp] theorem State.complete_fcause (s : State) (n : Nat) :
    (s.complete n).fcause = s.fcause := rfl

@[simp] theorem State.complete_fhdr (s : State) (n : Nat) :
    (s.complete n).fhdr = s.fhdr := rfl

@[simp] theorem State.complete_spos (s : State) (n : Nat) :
    (s.complete n).spos = s.spos + BitVec.ofNat 64 n := rfl

@[simp] theorem State.complete_stream (s : State) (n : Nat) :
    (s.complete n).stream = s.stream := rfl

@[simp] theorem State.complete_engine (s : State) (n : Nat) (e : EngineId) :
    (s.complete n).engine e = s.engine e := by cases e <;> rfl

/-! ## Writing an engine (R18) -/

@[simp] theorem State.setEngine_ipad (s : State) (e : EngineId) (g : Engine) :
    (s.setEngine e g).ipad = s.ipad := by cases e <;> rfl

@[simp] theorem State.setEngine_opad (s : State) (e : EngineId) (g : Engine) :
    (s.setEngine e g).opad = s.opad := by cases e <;> rfl

@[simp] theorem State.setEngine_kv (s : State) (e : EngineId) (g : Engine) :
    (s.setEngine e g).kv = s.kv := by cases e <;> rfl

@[simp] theorem State.setEngine_hs (s : State) (e : EngineId) (g : Engine) :
    (s.setEngine e g).hs = s.hs := by cases e <;> rfl

@[simp] theorem State.setEngine_eqr (s : State) (e : EngineId) (g : Engine) :
    (s.setEngine e g).eqr = s.eqr := by cases e <;> rfl

@[simp] theorem State.setEngine_dout (s : State) (e : EngineId) (g : Engine) :
    (s.setEngine e g).dout = s.dout := by cases e <;> rfl

@[simp] theorem State.setEngine_flt (s : State) (e : EngineId) (g : Engine) :
    (s.setEngine e g).flt = s.flt := by cases e <;> rfl

@[simp] theorem State.setEngine_fcause (s : State) (e : EngineId) (g : Engine) :
    (s.setEngine e g).fcause = s.fcause := by cases e <;> rfl

@[simp] theorem State.setEngine_fhdr (s : State) (e : EngineId) (g : Engine) :
    (s.setEngine e g).fhdr = s.fhdr := by cases e <;> rfl

@[simp] theorem State.setEngine_spos (s : State) (e : EngineId) (g : Engine) :
    (s.setEngine e g).spos = s.spos := by cases e <;> rfl

@[simp] theorem State.setEngine_stream (s : State) (e : EngineId) (g : Engine) :
    (s.setEngine e g).stream = s.stream := by cases e <;> rfl

@[simp] theorem State.engine_setEngine (s : State) (e : EngineId) (g : Engine) : (s.setEngine e g).engine e = g := by
  cases e <;> rfl

theorem State.engine_setEngine_ne (s : State) {e e' : EngineId} (g : Engine) (h : e' ≠ e) :
    (s.setEngine e g).engine e' = s.engine e' := by
  cases e <;> cases e' <;> first | rfl | exact absurd rfl h

/-! ## The engines under the writes of the other fields -/

@[simp] theorem State.engine_with_stream (s : State) (bs : List Byte) (e : EngineId) :
    State.engine { s with stream := bs } e = s.engine e := by cases e <;> rfl

@[simp] theorem State.engine_with_dout (s : State) (d : Vector Byte 32) (e : EngineId) :
    State.engine { s with dout := d } e = s.engine e := by cases e <;> rfl

@[simp] theorem State.engine_with_eqr (s : State) (b : Bool) (e : EngineId) :
    State.engine { s with eqr := b } e = s.engine e := by cases e <;> rfl

@[simp] theorem State.engine_with_pads (s : State) (p q : Block) (b : Bool) (e : EngineId) :
    State.engine { s with ipad := p, opad := q, kv := b } e = s.engine e := by cases e <;> rfl

/-! ## The engine reset (R72) -/

@[simp] theorem Engine.reset_st (g : Engine) : g.reset.st = .accum := rfl

@[simp] theorem Engine.reset_h (g : Engine) : g.reset.h = initialState := rfl

@[simp] theorem Engine.reset_buf (g : Engine) : g.reset.buf = g.buf := rfl

@[simp] theorem Engine.reset_occ (g : Engine) : g.reset.occ = 0 := rfl

@[simp] theorem Engine.reset_len (g : Engine) : g.reset.len = 0 := rfl

end Sys2Proof.Machine
end

