-- ==== Sys2Proof/Laws/Ops.lean ====
section
/-! SUPPORT. What a command's checks can do (R87), and what one command and one step can do: each either takes the fault
entry or completes. Later proofs cite these instead of unfolding `guarded`, `exec` and `step`. -/

namespace Sys2Proof.Machine

@[simp] theorem firstFailing_nil : firstFailing [] = none := rfl

@[simp] theorem firstFailing_cons_true (c : Cause) (cs : List (Bool × Cause)) :
    firstFailing ((true, c) :: cs) = some c := rfl

@[simp] theorem firstFailing_cons_false (c : Cause) (cs : List (Bool × Cause)) :
    firstFailing ((false, c) :: cs) = firstFailing cs := rfl

theorem firstFailing_eq_none {cs : List (Bool × Cause)} : firstFailing cs = none ↔ ∀ p ∈ cs, p.1 = false := by
  induction cs with
  | nil => simp
  | cons p cs ih => obtain ⟨b, c⟩ := p; cases b <;> simp [ih]

/-- A command whose checks all pass completes (R53). -/
theorem guarded_pass {i : Instr} {cs : List (Bool × Cause)} {s d : State} (h : ∀ p ∈ cs, p.1 = false) :
    guarded i cs s d = .next (d.complete i.size) := by
  simp [guarded, firstFailing_eq_none.mpr h]

/-- A command with a failing check takes the fault entry with the first failing cause (R87, R88). -/
theorem guarded_fail {i : Instr} {cs : List (Bool × Cause)} {s d : State} {c : Cause} (h : firstFailing cs = some c) :
    guarded i cs s d = .next (s.raiseFault c i.header) := by
  simp [guarded, h]

/-- All that a command can do: complete, every check passed, or take the fault entry of its first failing check. -/
theorem guarded_cases {i : Instr} {cs : List (Bool × Cause)} {s d t : State} (h : guarded i cs s d = .next t) :
    ((∀ p ∈ cs, p.1 = false) ∧ t = d.complete i.size) ∨
      ∃ c, firstFailing cs = some c ∧ t = s.raiseFault c i.header := by
  unfold guarded at h
  split at h
  · rename_i c hc; exact .inr ⟨c, hc, by simpa using h.symm⟩
  · rename_i hn; exact .inl ⟨firstFailing_eq_none.mp hn, by simpa using h.symm⟩

/-- The checks of each command on the state before it, in R87's order. -/
def checksOf (i : Instr) (s : State) : List (Bool × Cause) :=
  match i with
  | .erst _ => [(s.hs, .engineOwned)]
  | .eabs e data =>
    [(s.hs, .engineOwned), (decide ((s.engine e).st = .uninit), .engineUninit),
      (decide ((s.engine e).st = .final), .engineFinalized), ((s.engine e).lengthOverflow data.length, .lengthOverflow)]
  | .efin e =>
    [(s.hs, .engineOwned), (decide ((s.engine e).st = .uninit), .engineUninit),
      (decide ((s.engine e).st = .final), .engineFinalized)]
  | .hkey _ => [(s.hs, .sessionActive)]
  | .hstart => [(!s.kv, .noKey)]
  | .hdata frag => [(!s.hs, .noSession), (s.e0.lengthOverflow frag.length, .lengthOverflow)]
  | .hfin => [(!s.hs, .noSession)]
  | .eqCheck _ _ => []

/-- The writes of each command that completes, SPOS apart. -/
def effectOf (i : Instr) (s : State) : State :=
  match i with
  | .erst e => s.setEngine e (s.engine e).reset
  | .eabs e data => s.setEngine e ((s.engine e).absorb data)
  | .efin e => { s.setEngine e (s.engine e).finalize with dout := byteVec 32 (s.engine e).digest }
  | .hkey key =>
    { s with ipad := padOf Config.ipadc (normKey key), opad := padOf Config.opadc (normKey key), kv := true }
  | .hstart => { s with e0 := s.e0.reset.absorb s.ipad.toList, hs := true }
  | .hdata frag => { s with e0 := s.e0.absorb frag }
  | .hfin =>
    { s with
      e0 := s.e0.finalize
      e1 := (hfinOuter s).finalize
      dout := byteVec 32 (hfinOuter s).digest
      hs := false }
  | .eqCheck a b => { s with eqr := eqResult a b }

/-- Every command is its checks and its effect. -/
theorem exec_eq_guarded (i : Instr) (s : State) : exec i s = guarded i (checksOf i s) s (effectOf i s) := by
  cases i <;> rfl

/-- All that executing a command can do. -/
theorem exec_cases {i : Instr} {s t : State} (h : exec i s = .next t) :
    ((∀ p ∈ checksOf i s, p.1 = false) ∧ t = (effectOf i s).complete i.size) ∨
      ∃ c, firstFailing (checksOf i s) = some c ∧ t = s.raiseFault c i.header :=
  guarded_cases (exec_eq_guarded i s ▸ h)

/-- A command's effect writes neither the fault flag, nor SPOS, nor the stream. -/
theorem effectOf_frame (i : Instr) (s : State) :
    (effectOf i s).flt = s.flt ∧ (effectOf i s).fcause = s.fcause ∧ (effectOf i s).fhdr = s.fhdr ∧
      (effectOf i s).spos = s.spos ∧ (effectOf i s).stream = s.stream := by
  cases i <;> simp [effectOf]

/-- A command's checks do not read the stream: its bytes have been read already (R53). -/
theorem checksOf_stream (i : Instr) (s : State) (bs : List Byte) :
    checksOf i { s with stream := bs } = checksOf i s := by
  cases i with
  | eabs e _ => cases e <;> rfl
  | efin e => cases e <;> rfl
  | _ => rfl

/-- A command's effect does not read the stream, and carries it along. -/
theorem effectOf_stream (i : Instr) (s : State) (bs : List Byte) :
    effectOf i { s with stream := bs } = { effectOf i s with stream := bs } := by
  cases i with
  | erst e => cases e <;> rfl
  | eabs e _ => cases e <;> rfl
  | efin e => cases e <;> rfl
  | _ => rfl

/-- All that a step can do: execute the next whole command, or take a header fault. -/
theorem step_cases {s t : State} (h : step s = .next t) :
    s.flt = false ∧
      ((∃ i rest, decode s.stream = .command i rest ∧ exec i { s with stream := rest } = .next t) ∨
        (∃ hdr, decode s.stream = .illegalOpcode hdr ∧ t = s.raiseFault .illegalOpcode hdr) ∨
        (∃ hdr, decode s.stream = .reservedField hdr ∧ t = s.raiseFault .reservedField hdr)) := by
  unfold step State.fetch at h
  cases hf : s.flt with
  | true => simp [hf] at h
  | false =>
    refine ⟨rfl, ?_⟩
    simp only [hf, Bool.false_eq_true, if_false] at h
    cases hd : decode s.stream with
    | command i rest => simp only [hd] at h; exact .inl ⟨i, rest, rfl, h⟩
    | illegalOpcode hdr => simp only [hd] at h; exact .inr (.inl ⟨hdr, rfl, by simpa using h.symm⟩)
    | reservedField hdr => simp only [hd] at h; exact .inr (.inr ⟨hdr, rfl, by simpa using h.symm⟩)
    | incomplete => simp [hd] at h

/-- Every command of the stream's form has a next state: nothing stops and nothing is refused (R86, R92). -/
theorem guarded_next (i : Instr) (cs : List (Bool × Cause)) (s d : State) : ∃ t, guarded i cs s d = .next t := by
  unfold guarded; split <;> exact ⟨_, rfl⟩

end Sys2Proof.Machine
end

