-- ==== Sys2Proof/Laws/PerInstr.lean ====
section
/-! SUPPORT. Per-command laws: the encoding of every command has the length rule R49 gives it. -/

namespace Sys2Proof.Laws.SizeLaw

/-- The encoder emits exactly `size` bytes (R49), so the next header starts right after them. -/
def Statement (i : Instr) : Prop := (encode i).length = i.size

theorem encode_length_sum (i : Instr) : (encode i).length = 4 + (i.payloads.map fun p => 4 + p.length).sum := by
  simp [encode, List.length_flatMap, encodePayload]

theorem erst (e : EngineId) : Statement (.erst e) := encode_length_sum _

theorem eabs (e : EngineId) (data : List Byte) : Statement (.eabs e data) := by
  simp [Statement, encode_length_sum, Instr.payloads, Instr.size]; omega

theorem efin (e : EngineId) : Statement (.efin e) := encode_length_sum _

theorem hkey (key : List Byte) : Statement (.hkey key) := by
  simp [Statement, encode_length_sum, Instr.payloads, Instr.size]; omega

theorem hstart : Statement .hstart := encode_length_sum _

theorem hdata (frag : List Byte) : Statement (.hdata frag) := by
  simp [Statement, encode_length_sum, Instr.payloads, Instr.size]; omega

theorem hfin : Statement .hfin := encode_length_sum _

theorem eqCheck (a b : List Byte) : Statement (.eqCheck a b) := by
  simp [Statement, encode_length_sum, Instr.payloads, Instr.size]; omega

end Sys2Proof.Laws.SizeLaw
end

