-- ==== Sys2Proof/Tests/Slice0.lean ====
section
/-! SUPPORT. Tests of the model, each with the vector of `spec/95_test_vectors.md` or the rule its expected value is from,
and for each statement with hypotheses a witness: a concrete state and operands that meet all of them together. -/

namespace Sys2Proof.Tests

open Sys2Proof.Machine

-- One theorem at a time: each evaluates the machine in the kernel, and together they would need too much memory.
set_option Elab.async false

/-! ## Helpers -/

/-- A property of the next state; false of a hold or a refusal. -/
def nextMeets (r : Result) (p : State → Bool) : Bool :=
  match r with
  | .next t => p t
  | .fault _ => false
  | .refused _ => false

/-- The vectors' `a*n`: `n` bytes of 0x61. -/
def as (n : Nat) : List Byte := List.replicate n 0x61

/-- The vectors' `keyN`: the bytes 0, 1, ..., N - 1. -/
def keyOf (n : Nat) : List Byte := (List.range n).map (BitVec.ofNat 8 ·)

/-- Engine E0 in ACCUM after absorbing `m`, E1 as after reset. -/
def e0Holding (m : List Byte) : State := { State.reset with e0 := Engine.initial.reset.absorb m }

/-- Engine E1 FINAL, nothing else done. -/
def e1Final : State := { State.reset with e1 := { Engine.initial with st := .final } }

/-- E0 in ACCUM with occupancy `occ` and length counter `len`, a state of V115's kind. -/
def e0At (occ : BitVec 7) (len : DWord) : State :=
  { State.reset with e0 := { Engine.initial.reset with occ := occ, len := len } }

/-- A derived key, no session. -/
def keyed (key : List Byte) : State :=
  { State.reset with ipad := padOf Config.ipadc (normKey key), opad := padOf Config.opadc (normKey key), kv := true }

/-- An open session under `key`, its inner engine after the fragments `m`. -/
def inSession (key m : List Byte) : State :=
  { keyed key with e0 := (Engine.initial.reset.absorb (keyed key).ipad.toList).absorb m, hs := true }

/-- A session whose inner engine is close to the length limit. -/
def sessionAt (len : DWord) : State := { keyed [] with e0 := { Engine.initial.reset with len := len }, hs := true }

/-- Bytes delivered to a state. -/
def delivered (s : State) (bs : List Byte) : State := { s with stream := bs }

theorem delivered_stream (s : State) (bs : List Byte) : (delivered s bs).stream = bs := rfl

/-- A faulted state: V100's. -/
def faulted : State := State.reset.afterFault 3 0x02000000

/-- The hex spelling of a byte sequence as one number, for comparing digests. -/
def asNat (bs : List Byte) : Nat := bs.foldl (fun n b => 256 * n + b.toNat) 0

/-! ## WellFormed: an ill-formed term for each check (R47) -/

theorem payloadWf_replicate (n : Nat) (b : Byte) :
    payloadWf (List.replicate n b) = decide (n < Config.payloadBound) := by simp only [payloadWf, List.length_replicate]

theorem test_wf_refuses_long_eabs : (Instr.eabs .e1 (List.replicate (2 ^ 32) 0)).wf = false := by
  simp only [Instr.wf, payloadWf_replicate, Config.payloadBound]; decide

theorem test_wf_refuses_long_hkey : (Instr.hkey (List.replicate (2 ^ 32) 0)).wf = false := by
  simp only [Instr.wf, payloadWf_replicate, Config.payloadBound]; decide

theorem test_wf_refuses_long_hdata : (Instr.hdata (List.replicate (2 ^ 32) 0)).wf = false := by
  simp only [Instr.wf, payloadWf_replicate, Config.payloadBound]; decide

theorem test_wf_refuses_long_first_operand : (Instr.eqCheck (List.replicate (2 ^ 32) 0) []).wf = false := by
  simp only [Instr.wf, payloadWf_replicate, Config.payloadBound]; decide

theorem test_wf_refuses_long_second_operand : (Instr.eqCheck [] (List.replicate (2 ^ 32) 0)).wf = false := by
  simp only [Instr.wf, payloadWf_replicate, Config.payloadBound]; decide

/-- The longest payload is legal: `L <= 2^32 - 1` (R47). -/
theorem test_wf_accepts_longest_payload : (Instr.eabs .e0 (List.replicate (2 ^ 32 - 1) 0)).wf = true := by
  simp only [Instr.wf, payloadWf_replicate, Config.payloadBound]; decide

/-! ## Decode: one word written out for each constructor (R46, R47, R50) -/

/-- R72's example bytes. -/
theorem test_decode_erst : decode [0x01, 0x01, 0x00, 0x00] = .command (.erst .e1) [] := by decide

/-- R55's example bytes. -/
theorem test_decode_eabs :
    decode [0x02, 0x00, 0x00, 0x00, 0x00, 0x00, 0x00, 0x03, 0x61, 0x62, 0x63] =
      .command (.eabs .e0 [0x61, 0x62, 0x63]) [] := by decide

/-- The header of V101, with the first byte of a next command after it. -/
theorem test_decode_efin : decode [0x03, 0x01, 0x00, 0x00, 0x01] = .command (.efin .e1) [0x01] := by decide

/-- The first command of P5. -/
theorem test_decode_hkey :
    decode [0x10, 0x00, 0x00, 0x00, 0x00, 0x00, 0x00, 0x03, 0x6b, 0x65, 0x79] =
      .command (.hkey [0x6b, 0x65, 0x79]) [] := by decide

/-- The header of P4. -/
theorem test_decode_hstart : decode [0x11, 0x00, 0x00, 0x00] = .command .hstart [] := by decide

/-- The empty fragment of P2. -/
theorem test_decode_hdata : decode [0x12, 0x00, 0x00, 0x00, 0x00, 0x00, 0x00, 0x00] = .command (.hdata []) [] := by
  decide

/-- The header of P2. -/
theorem test_decode_hfin : decode [0x13, 0x00, 0x00, 0x00] = .command .hfin [] := by decide

/-- V95's encoding. -/
theorem test_decode_eq :
    decode [0x20, 0, 0, 0, 0, 0, 0, 2, 0x00, 0xff, 0, 0, 0, 2, 0x00, 0xfe] =
      .command (.eqCheck [0x00, 0xff] [0x00, 0xfe]) [] := by decide

/-- V109, V110, V113. -/
theorem test_decode_illegal_opcodes :
    decode [0x04, 0, 0, 0] = .illegalOpcode 0x04000000 ∧ decode [0, 0, 0, 0] = .illegalOpcode 0 ∧
      decode [0xff, 0, 0, 0] = .illegalOpcode 0xff000000 := by decide

/-- V111, V112, the last word of P7, and a bit of RSV1 (R51). -/
theorem test_decode_reserved_fields :
    decode [0x01, 0, 0, 0x01] = .reservedField 0x01000001 ∧ decode [0x11, 0x01, 0, 0] = .reservedField 0x11010000 ∧
      decode [0x20, 0x01, 0, 0] = .reservedField 0x20010000 ∧
      decode [0x01, 0x02, 0, 0] = .reservedField 0x01020000 := by decide

/-- A command is not read before its last byte is in (R34). -/
theorem test_decode_waits :
    decode [0x01, 0x00, 0x00] = .incomplete ∧ decode [0x02, 0, 0, 0, 0, 0, 0, 1] = .incomplete ∧
      decode [0x20, 0, 0, 0, 0, 0, 0, 0, 0, 0, 0] = .incomplete := by decide

/-- R55's example, encoded. -/
theorem test_encode_eabs :
    encode (.eabs .e0 [0x61, 0x62, 0x63]) = [0x02, 0, 0, 0, 0, 0, 0, 0x03, 0x61, 0x62, 0x63] := by decide

theorem test_table_word_decodes :
    decodeTableWord 32 0x03010000 = some (.efin .e1) ∧ decodeTableWord 32 0x20000000 = some (.eqCheck [] []) ∧
      decodeTableWord 32 0x04000000 = none ∧ decodeTableWord 32 0x11010000 = none := by decide +kernel

/-- V49 through the fetch: STATUS = 4 and SPOS = 4. -/
theorem test_fetch_word_runs :
    nextMeets (step (State.reset.withFetchWord 32 0x01010000)) (fun t => t.status == 4 && t.spos == 4) := by
  decide +kernel

/-! ## The assembler (R55, R56) -/

/-- R55's example line, assembled, with a comment and a lower-case mnemonic. -/
theorem test_assemble_example :
    assemble "eabs E0, \"abc\" ; the example".toList = some [0x02, 0, 0, 0, 0, 0, 0, 0x03, 0x61, 0x62, 0x63] := by
  decide +kernel

/-- The byte terms: escapes, hex, `zeros`, `rep` and `++`. -/
theorem test_assemble_byte_terms :
    parseProgram "HKEY x\"0bff\" ++ zeros(2) ++ rep(2, \"a\\x0a\")\nHSTART".toList =
      some [.hkey [0x0b, 0xff, 0x00, 0x00, 0x61, 0x0a, 0x61, 0x0a], .hstart] := by decide +kernel

/-- The ends of the three ranges of hex digits, and the characters just outside them. -/
theorem test_hex_digits :
    ['0', '9', 'a', 'f', 'A', 'F'].map hexDigit = [some 0, some 9, some 10, some 15, some 10, some 15] ∧
      ['/', ':', '`', 'g', '@', 'G'].all (fun c => (hexDigit c).isNone) := by decide +kernel

/-- A count of two digits with blanks before it, and a text without a count. -/
theorem test_count : parseNumber [' ', '1', '0', ')'] = some (10, [')']) ∧ parseNumber ['a'] = none := by
  decide +kernel

/-- R56's table: HMAC with two fragments. -/
theorem test_assemble_hmac :
    parseProgram "HMAC \"k\", \"a\", \"b\"".toList = some [.hkey [0x6b], .hstart, .hdata [0x61], .hdata [0x62], .hfin] := by
  decide +kernel

/-! ## The Compression Core -/

/-- V1: the block of "abc". -/
theorem test_compress_abc :
    compress initialState (byteVec 64 ([0x61, 0x62, 0x63, 0x80] ++ zeros 52 ++ bytes64 24)) =
      #v[0xba7816bf, 0x8f01cfea, 0x414140de, 0x5dae2223, 0xb00361a3, 0x96177a9c, 0xb410ff61, 0xf20015ad] := by
  decide +kernel

/-- V19: all-ones state and block. -/
theorem test_compress_ones :
    compress (Vector.replicate 8 0xffffffff) (Vector.replicate 64 0xff) =
      #v[0x0598127a, 0xaf11706e, 0x77401fff, 0xd730c549, 0x0b84c867, 0xa98c6ca3, 0xd7f3c0f9, 0x06a78b79] := by
  decide +kernel

/-- V11, V12, V13. -/
theorem test_word_functions :
    bsig0 0x6a09e667 = 0xce20b47e ∧ bsig1 0x6a09e667 = 0x55b65510 ∧ ssig0 0x6a09e667 = 0xba0cf582 ∧
      ssig1 0x6a09e667 = 0xcfe5da3c ∧ ch 0x6a09e667 0xbb67ae85 0x3c6ef372 = 0x3e67b715 ∧
      maj 0x6a09e667 0xbb67ae85 0x3c6ef372 = 0x3a6fe667 := by decide

/-- Section 3.2: schedule words of the block of "abc". -/
theorem test_schedule :
    let w := messageSchedule (byteVec 64 ([0x61, 0x62, 0x63, 0x80] ++ zeros 52 ++ bytes64 24))
    w.getD 15 0 = 0x18 ∧ w.getD 18 0 = 0x7da86405 ∧ w.getD 63 0 = 0x12b1edeb := by decide +kernel

/-- V51, V52, V53. -/
theorem test_pads :
    padBytes 55 119 = [0x80, 0, 0, 0, 0, 0, 0, 0x03, 0xb8] ∧
      padBytes 56 120 = [0x80] ++ zeros 63 ++ [0, 0, 0, 0, 0, 0, 0x03, 0xc0] ∧
      padBytes 63 127 = [0x80] ++ zeros 56 ++ [0, 0, 0, 0, 0, 0, 0x03, 0xf8] := by decide

/-! ## One step of each command -/

/-- V49. -/
theorem test_erst : nextMeets (exec (.erst .e1) State.reset) (fun t => t.readPort 0 == 4 && t.spos == 4) := by
  decide +kernel

/-- V104: an engine command inside a session. -/
theorem test_erst_in_session :
    nextMeets (exec (.erst .e1) (inSession [0x6b, 0x65, 0x79] []))
      (fun t => t.readPort 0 == 0xb1 && t.fcause == 5 && t.fhdr == 0x01010000) := by decide +kernel

/-- V44's second chunk, on E0: 60 bytes held, 10 more cross the block boundary. -/
theorem test_eabs_crosses_block :
    nextMeets (exec (.eabs .e0 (as 10)) (e0Holding (as 60)))
      (fun t => t.e0.occ == 6 && t.e0.len == 70 && t.spos == 18 && t.e0.finalize.st == .final &&
        asNat t.e0.digest == 0x6bd5e5034855a11241f0dee8fc72850ffd9955b28347a86428b5fa19119f6ad0) := by decide +kernel

/-- V115 and V116: the length limit, one byte past it and exactly at it. -/
theorem test_eabs_length_limit :
    nextMeets (exec (.eabs .e0 (as 4)) (e0At 0 (2 ^ 61 - 4)))
        (fun t => t.fcause == 9 && t.fhdr == 0x02000000 && t.e0.len == 2 ^ 61 - 4) &&
      nextMeets (exec (.eabs .e0 (as 3)) (e0At 0 (2 ^ 61 - 4)))
        (fun t => !t.flt && t.e0.len == 2 ^ 61 - 1) := by decide +kernel

/-- V34: 56 bytes take two padding blocks. -/
theorem test_efin_two_blocks :
    nextMeets (exec (.efin .e0) (e0Holding (as 56)))
      (fun t => t.readPort 0 == 2 && t.spos == 4 &&
        asNat t.dout.toList == 0xb35439a4ac6f0948b6d6f9e3c6af0f5f590ce20f1bde7090ef7970686ec6738a) := by decide +kernel

/-- V101: EFIN on an UNINIT engine. -/
theorem test_efin_uninit :
    nextMeets (exec (.efin .e1) State.reset)
      (fun t => t.fcause == 3 && t.fhdr == 0x03010000 && t.spos == 0 && t.dout == State.reset.dout) := by
  decide +kernel

/-- V77: the empty key. -/
theorem test_hkey_empty :
    nextMeets (exec (.hkey []) State.reset)
      (fun t => t.ipad.toList == List.replicate 64 0x36 && t.opad.toList == List.replicate 64 0x5c && t.kv &&
        t.spos == 8) := by decide +kernel

/-- V76: a key of 65 bytes is hashed first. -/
theorem test_hkey_long :
    nextMeets (exec (.hkey (keyOf 65)) State.reset)
      (fun t => asNat ((t.ipad.toList.take 32).map (· ^^^ 0x36)) ==
          0x4bfd2c8b6f1eec7a2afeb48b934ee4b2694182027e6d0fc075074f2fabb31781 &&
        t.opad.toList.drop 32 == List.replicate 32 0x5c) := by decide +kernel

/-- V21. -/
theorem test_hstart :
    nextMeets (exec .hstart (keyed (zeros 16)))
      (fun t => t.readPort 0 == 0x31 && t.e0.len == 64 && t.e0.occ == 0 &&
        t.e0.h == #v[0xf454dead, 0x9725214f, 0x90daf2a0, 0xdf1228ea, 0x64e5750f, 0xa3924181, 0x824a932b, 0xf8e04e32]) := by
  decide +kernel

/-- V105: HSTART without a key. -/
theorem test_hstart_no_key :
    nextMeets (exec .hstart (e0Holding [])) (fun t => t.readPort 0 == 0x81 && t.fcause == 6 && t.fhdr == 0x11000000) := by
  decide +kernel

/-- R79's example: 25 bytes in a session. -/
theorem test_hdata :
    nextMeets (exec (.hdata (as 25)) (inSession (zeros 16) []))
      (fun t => t.e0.len == 89 && t.e0.occ == 25 && t.spos == 33) := by decide +kernel

/-- V106. -/
theorem test_hdata_no_session :
    nextMeets (exec (.hdata [0x78]) State.reset) (fun t => t.fcause == 7 && t.fhdr == 0x12000000) := by decide +kernel

/-- V20 with V79's status: the golden tag. -/
theorem test_hfin :
    nextMeets (exec .hfin (inSession (zeros 16) (List.replicate 5 [0x74, 0x65, 0x73, 0x74, 0x20]).flatten))
      (fun t => t.readPort 0 == 0x1a && t.e0.len == 89 && t.e1.len == 96 &&
        asNat t.dout.toList == 0x66bdab748b4ab5e2ba47290954104e095ddbd0d8846083db4373202566ee33e0) := by decide +kernel

/-- V107. -/
theorem test_hfin_no_session :
    nextMeets (exec .hfin State.reset) (fun t => t.fcause == 7 && t.fhdr == 0x13000000) := by decide +kernel

/-- V91, V92. -/
theorem test_eq :
    nextMeets (exec (.eqCheck [0x61, 0x62, 0x63] [0x61, 0x62, 0x63]) State.reset) (fun t => t.eqr && t.spos == 18) &&
      nextMeets (exec (.eqCheck [0x61, 0x62, 0x63] [0x61, 0x62, 0x64]) State.reset) (fun t => !t.eqr) := by
  decide +kernel

/-- V94: a prefix is unequal. -/
theorem test_eq_prefix :
    nextMeets (exec (.eqCheck [0x61, 0x62] [0x61, 0x62, 0x63]) { State.reset with eqr := true })
      (fun t => !t.eqr && t.spos == 17) := by decide +kernel

/-- V109 as a step: the fault entry, at stream offset 0. -/
theorem test_step_illegal_opcode :
    nextMeets (step (delivered State.reset [0x04, 0, 0, 0, 0x03, 0, 0, 0]))
      (fun t => t.readPort 0 == 0x80 && t.readPort 1 == 1 && t.readPort 2 == 0x04000000 && t.readPort 3 == 0) := by
  decide +kernel

/-! ## Witnesses: encoding and the step -/

theorem witness_DecodeReadsEveryEncodedCommand : (Instr.eqCheck [0x61] []).wf = true := by decide

theorem witness_DecodedBytesAreTheEncoding :
    decode [0x12, 0, 0, 0, 0, 0, 0, 1, 0x61, 0xff] = .command (.hdata [0x61]) [0xff] := by decide

theorem witness_BadHeadersFault_opcode :
    let s := delivered State.reset [0x04, 0, 0, 0, 0x61]
    s.flt = false ∧ s.stream = bytes32 0x04000000 ++ [0x61] ∧
      (0x04000000 : Word).extractLsb' 24 8 ∉ ([0x01, 0x02, 0x03, 0x10, 0x11, 0x12, 0x13, 0x20] : List Byte) := by decide

/-- One witness for each of the three kinds of reserved bit. -/
theorem witness_BadHeadersFault_reserved :
    (delivered State.reset [0x01, 0x02, 0, 0]).stream = bytes32 0x01020000 ++ [] ∧
      (0x01020000 : Word).extractLsb' 17 7 ≠ 0 ∧
      (delivered State.reset [0x01, 0, 0, 1]).stream = bytes32 0x01000001 ++ [] ∧
      (0x01000001 : Word).extractLsb' 0 16 ≠ 0 ∧
      (delivered State.reset [0x11, 1, 0, 0]).stream = bytes32 0x11010000 ++ [] ∧
      ((0x11010000 : Word).extractLsb' 24 8 ∉ ([0x01, 0x02, 0x03] : List Byte) ∧
        (0x11010000 : Word).extractLsb' 16 1 ≠ 0) := by decide

theorem witness_StepRunsDecodedCommand :
    let s := delivered State.reset [0x01, 0, 0, 0, 0x03]
    s.flt = false ∧ decode s.stream = .command (.erst .e0) [0x03] := by decide

/-- A command that completes, and one that faults (V101), each encoded on the stream. -/
theorem witness_StreamPositionAdvancesBySize :
    (let s := delivered State.reset [0x01, 0, 0, 0]
    s.flt = false ∧ (Instr.erst .e0).wf = true ∧ s.stream = encode (.erst .e0) ++ [] ∧
      nextMeets (step s) (fun t => !t.flt)) ∧
    let s := delivered State.reset [0x03, 1, 0, 0, 0x61]
    s.flt = false ∧ (Instr.efin .e1).wf = true ∧ s.stream = encode (.efin .e1) ++ [0x61] ∧
      nextMeets (step s) (fun t => t.flt) := by decide +kernel

/-- Nothing delivered, and all but the last byte delivered. -/
theorem witness_PartialCommandHolds :
    (State.reset.flt = false ∧ (Instr.erst .e0).wf = true ∧ State.reset.stream ++ [0x01, 0, 0, 0] = encode (.erst .e0)) ∧
      (delivered State.reset [0x12, 0, 0, 0, 0, 0, 0, 1]).stream ++ [0x61] = encode (.hdata [0x61]) := by decide

theorem witness_StepCommutesWithDelivery :
    nextMeets (step (delivered State.reset [0x01, 0, 0, 0])) (fun t => t.e0.st == .accum) := by decide +kernel

theorem witness_StepConsumesStream :
    nextMeets (step (delivered State.reset [0x20, 0, 0, 0, 0, 0, 0, 0, 0, 0, 0, 0])) (fun t => t.stream.isEmpty) := by
  decide +kernel

/-- A STATUS read that shows a fault raised by the bytes delivered before it, and two later reads. -/
theorem witness_FaultShownStaysShown :
    ReadsMayReturn State.reset
      [{ before := [0x04, 0, 0, 0], during := [0x01], addr := 0x00, value := 0x80 },
        { before := [], during := [], addr := 0x00, value := 0x80 },
        { before := [0x01, 0, 0, 0], during := [], addr := 0x02, value := 0x04000000 }] :=
  ⟨0, State.reset.afterFault 1 0x04000000, by decide +kernel, by decide +kernel,
    0, State.reset.afterFault 1 0x04000000, by decide +kernel, by decide +kernel,
    0, State.reset.afterFault 1 0x04000000, by decide +kernel, by decide +kernel, trivial⟩

/-- Two states that differ in `H`, `LEN` and the pads only. -/
theorem witness_ReadsHideEnginesAndPads :
    let s := inSession [] []
    let t := { inSession [0x6b] [0x61] with spos := s.spos }
    s ≠ t ∧ (s.engine .e0).st = (t.engine .e0).st ∧ (s.engine .e1).st = (t.engine .e1).st ∧ s.kv = t.kv ∧ s.hs = t.hs ∧
      s.eqr = t.eqr ∧ s.dout = t.dout ∧ s.flt = t.flt ∧ s.fcause = t.fcause ∧ s.fhdr = t.fhdr ∧ s.spos = t.spos := by
  decide +kernel

/-- The two ends of the reserved range. -/
theorem witness_ReadPortMap : 0x10 ≤ (0x10 : BitVec 8).toNat ∧ 0x10 ≤ (0xff : BitVec 8).toNat := by decide

theorem witness_FaultEntryIsPrecise :
    nextMeets (step (delivered State.reset [0x03, 1, 0, 0])) (fun t => t.flt) := by decide +kernel

theorem witness_FaultIsStickyAndFinal : faulted.flt = true := by decide

/-! ## Witnesses: the checks -/

theorem witness_FirstFailingCheckIsReported_header :
    (delivered State.reset [0x04, 0, 0, 0]).stream = bytes32 0x04000000 ++ [] ∧
      Opcode.ofByte (opcField 0x04000000) = none ∧
      (delivered State.reset [0x20, 1, 0, 0]).stream = bytes32 0x20010000 ++ [] ∧
      Opcode.ofByte (opcField 0x20010000) = some .eqCheck ∧ reservedSet .eqCheck 0x20010000 = true := by decide

/-- Every engine-command clause: in a session, UNINIT, FINAL, and one byte past the limit. -/
theorem witness_FirstFailingCheckIsReported_engine :
    (inSession [] []).hs = true ∧ (State.reset.hs = false ∧ (State.reset.engine .e0).st = .uninit) ∧
      (e1Final.hs = false ∧ (e1Final.engine .e1).st = .final) ∧
      (let s := e0At 0 (2 ^ 61 - 4)
      s.hs = false ∧ (s.engine .e0).st = .accum ∧ 2 ^ 61 - 1 < (s.engine .e0).len.toNat + (as 4).length) := by
  decide +kernel

/-- Every HMAC-command clause. -/
theorem witness_FirstFailingCheckIsReported_hmac :
    (inSession [] []).hs = true ∧ State.reset.kv = false ∧ State.reset.hs = false ∧
      (let s := sessionAt (2 ^ 61 - 4)
      s.hs = true ∧ 2 ^ 61 - 1 < s.e0.len.toNat + (as 4).length) := by decide +kernel

theorem witness_SessionOwnsBothEngines : (inSession [0x6b] []).hs = true := by decide +kernel

/-- Both sides of the limit for EABS and HDATA (V115, V116), a key for HSTART, a session for HFIN. -/
theorem witness_LengthLimit :
    (let s := e0At 0 (2 ^ 61 - 4)
    s.hs = false ∧ (s.engine .e0).st = .accum ∧ (s.engine .e0).len.toNat + (as 4).length > 2 ^ 61 - 1 ∧
      (s.engine .e0).len.toNat + (as 3).length ≤ 2 ^ 61 - 1) ∧
    (let s := sessionAt (2 ^ 61 - 4)
    s.hs = true ∧ s.e0.len.toNat + (as 4).length > 2 ^ 61 - 1 ∧ s.e0.len.toNat + (as 3).length ≤ 2 ^ 61 - 1) ∧
    (keyed []).kv = true ∧ (inSession [] []).hs = true := by decide +kernel

theorem witness_FaultsIgnoreData :
    (e0Holding []).flt = false ∧ ([0x61] : List Byte).length = ([0xff] : List Byte).length ∧
      nextMeets (exec (.eabs .e0 [0x61]) (e0Holding [])) (fun t => !t.flt) ∧
      nextMeets (exec (.eabs .e0 [0xff]) (e0Holding [])) (fun t => !t.flt) ∧
      nextMeets (exec (.hdata [0x61]) (inSession [] [])) (fun t => !t.flt) ∧
      nextMeets (exec (.hkey [0x61]) State.reset) (fun t => !t.flt) ∧
      nextMeets (exec (.eqCheck [0x61] []) State.reset) (fun t => !t.flt) := by decide +kernel

/-! ## Witnesses: the Compression Core -/

/-- The ends of the shift amounts and of the bit positions. -/
theorem witness_WordFunctions : 0 < 1 ∧ 1 < 32 ∧ 0 < 31 ∧ 31 < 32 ∧ 0 < 32 := by decide

/-- The first and the last word of the recurrence, and the first and the last round. -/
theorem witness_MessageScheduleRecurrence : 16 ≤ 16 ∧ 16 < 64 ∧ 16 ≤ 63 ∧ 63 < 64 := by decide

theorem witness_CompressionRounds : 0 < 64 ∧ 63 < 64 := by decide

/-! ## Witnesses: the engine commands -/

theorem witness_ErstResetsTheEngine : (inSession [] []).hs = true ∧ e1Final.hs = false := by decide +kernel

/-- The completing clause at the edges: one byte into a buffer of 63 (V47), 65 bytes into an empty one (V48), and LEN at
LMAX; the zero-length clause; and the four faults. -/
theorem witness_EabsAbsorbsThePayload :
    (let s := e0Holding (as 63)
    s.hs = false ∧ (s.engine .e0).st = .accum ∧ (s.engine .e0).occ.toNat ≤ 63 ∧
      (s.engine .e0).len.toNat + (as 1).length ≤ 2 ^ 61 - 1) ∧
    (let s := e0At 63 (2 ^ 61 - 4)
    s.hs = false ∧ (s.engine .e0).st = .accum ∧ (s.engine .e0).occ.toNat ≤ 63 ∧
      (s.engine .e0).len.toNat + (as 3).length ≤ 2 ^ 61 - 1) ∧
    (let s := e0At 63 (2 ^ 61 - 1)
    s.hs = false ∧ (s.engine .e0).st = .accum ∧ (s.engine .e0).occ.toNat ≤ 63 ∧ (s.engine .e0).len.toNat ≤ 2 ^ 61 - 1) ∧
    (inSession [] []).hs = true ∧ (State.reset.hs = false ∧ (State.reset.engine .e1).st = .uninit) ∧
    (e1Final.hs = false ∧ (e1Final.engine .e1).st = .final) ∧
    2 ^ 61 - 1 < ((e0At 0 (2 ^ 61 - 4)).engine .e0).len.toNat + (as 4).length := by decide +kernel

/-- The pad's two sides: 55 and 56 bytes held, and the ends of the range. -/
theorem witness_PadFillsWholeBlocks :
    55 ≤ 63 ∧ 56 ≤ 63 ∧ 63 ≤ 63 ∧ (2 ^ 61 - 1 : DWord).toNat ≤ 2 ^ 61 - 1 := by decide +kernel

/-- The completing clause with 55 and with 56 bytes held (V33, V34), and the three faults. -/
theorem witness_EfinFinalizesTheEngine :
    (let s := e0Holding (as 55)
    s.hs = false ∧ (s.engine .e0).st = .accum ∧ (s.engine .e0).occ.toNat = 55 ∧ (s.engine .e0).len.toNat ≤ 2 ^ 61 - 1) ∧
    (let s := e0Holding (as 56)
    s.hs = false ∧ (s.engine .e0).st = .accum ∧ (s.engine .e0).occ.toNat = 56 ∧ (s.engine .e0).len.toNat ≤ 2 ^ 61 - 1) ∧
    (inSession [] []).hs = true ∧ (State.reset.engine .e1).st = .uninit ∧
    (e1Final.hs = false ∧ (e1Final.engine .e1).st = .final) := by decide +kernel

/-- E0 holding a message of one block and 6 bytes stands for it (R22). -/
theorem witness_represents : (e0Holding (as 70)).e0.Represents (as 70) :=
  ⟨by decide +kernel, by decide +kernel, by decide +kernel, by decide +kernel⟩

theorem witness_EfinYieldsDigestOfMessage :
    (e0Holding (as 70)).hs = false ∧ ((e0Holding (as 70)).engine .e0).st = .accum ∧
      ((e0Holding (as 70)).engine .e0).Represents (as 70) ∧ (as 70).length ≤ 2 ^ 61 - 1 :=
  ⟨by decide +kernel, by decide +kernel, witness_represents, by decide⟩

theorem witness_Sha256IsTheBlockFold : (as 3).length ≤ 2 ^ 61 - 1 := by decide

theorem witness_ChunkingInvariance :
    (e0Holding (as 60)).e0.st = .accum ∧ (e0Holding (as 60)).e0.occ.toNat ≤ 63 := by decide +kernel

/-- Two chunks of "abc" (V43) on the stream of a state whose engine is spent. -/
theorem witness_DigestOfChunkedMessage :
    let chunks : List (List Byte) := [[0x61], [0x62, 0x63]]
    let s := delivered e1Final (encodeAll (Instr.erst .e1 :: chunks.map (Instr.eabs .e1) ++ [Instr.efin .e1]) ++ [0x01])
    s.flt = false ∧ s.hs = false ∧ (∀ c ∈ chunks, payloadWf c = true) ∧ chunks.flatten.length ≤ 2 ^ 61 - 1 ∧
      s.stream = encodeAll (Instr.erst .e1 :: chunks.map (Instr.eabs .e1) ++ [Instr.efin .e1]) ++ [0x01] :=
  ⟨rfl, rfl, by decide, by decide, delivered_stream _ _⟩

/-! ## Witnesses: the HMAC driver and EQ -/

/-- Both clauses; the key lengths 64 and 65 lie on the two sides of the hashing threshold. -/
theorem witness_HkeyDerivesBothPads :
    (inSession [] []).hs = true ∧ State.reset.hs = false ∧ ¬64 < (keyOf 64).length ∧ 64 < (keyOf 65).length := by
  decide +kernel

/-- Both clauses, the completing one also inside a session (R78's corner case). -/
theorem witness_HstartOpensTheSession :
    State.reset.kv = false ∧ (keyed []).kv = true ∧ ((inSession [] []).kv = true ∧ (inSession [] []).hs = true) := by
  decide +kernel

theorem witness_HdataAbsorbsTheFragment :
    State.reset.hs = false ∧
      (let s := sessionAt (2 ^ 61 - 4)
      s.hs = true ∧ s.e0.occ.toNat ≤ 63 ∧ 2 ^ 61 - 1 < s.e0.len.toNat + (as 4).length ∧
        s.e0.len.toNat + (as 3).length ≤ 2 ^ 61 - 1) ∧
      (let s := inSession [] (as 63)
      s.hs = true ∧ s.e0.occ.toNat = 63 ∧ s.e0.len.toNat + (as 1).length ≤ 2 ^ 61 - 1 ∧
        s.e0.len.toNat ≤ 2 ^ 61 - 1) := by decide +kernel

theorem witness_HfinProducesTheTag :
    State.reset.hs = false ∧
      (let s := inSession [0x6b] (as 55)
      s.hs = true ∧ s.e0.occ.toNat = 55 ∧ s.e0.len.toNat ≤ 2 ^ 61 - 1) ∧
      (let s := inSession [0x6b] (as 56)
      s.hs = true ∧ s.e0.occ.toNat = 56 ∧ s.e0.len.toNat ≤ 2 ^ 61 - 1) := by decide +kernel

theorem witness_HmacTagOfKeyAndFragments :
    let key : List Byte := [0x6b]
    let frags : List (List Byte) := [[0x61], []]
    let s := delivered State.reset (encodeAll (Pseudo.hmac key frags).expand ++ [])
    s.flt = false ∧ s.hs = false ∧ payloadWf key = true ∧ (∀ f ∈ frags, payloadWf f = true) ∧
      64 + frags.flatten.length ≤ 2 ^ 61 - 1 ∧ s.stream = encodeAll (Pseudo.hmac key frags).expand ++ [] := by
  decide +kernel

/-- The DIGEST clause. -/
theorem witness_PseudoInstructionResults_digest :
    let s := delivered State.reset (encodeAll [Instr.erst .e0, Instr.eabs .e0 [0x61], Instr.efin .e0] ++ [])
    s.flt = false ∧ s.hs = false ∧ payloadWf [0x61] = true ∧
      s.stream = encodeAll [Instr.erst .e0, Instr.eabs .e0 [0x61], Instr.efin .e0] ++ [] := by decide +kernel

/-- The HDIGEST clause, with no fragment (V78), and the HMAC clause. -/
theorem witness_PseudoInstructionResults_hmac :
    (let frags : List (List Byte) := []
    let s := delivered (keyed []) (encodeAll (Instr.hstart :: frags.map Instr.hdata ++ [Instr.hfin]) ++ [])
    s.flt = false ∧ s.hs = false ∧ s.kv = true ∧
      s.stream = encodeAll (Instr.hstart :: frags.map Instr.hdata ++ [Instr.hfin]) ++ []) ∧
    let frags : List (List Byte) := [[0x61]]
    let s := delivered State.reset
      (encodeAll (Instr.hkey [0x6b] :: Instr.hstart :: frags.map Instr.hdata ++ [Instr.hfin]) ++ [0x20])
    s.flt = false ∧ s.hs = false ∧ payloadWf [0x6b] = true ∧ (∀ f ∈ frags, payloadWf f = true) ∧
      64 + frags.flatten.length ≤ 2 ^ 61 - 1 ∧
      s.stream = encodeAll (Instr.hkey [0x6b] :: Instr.hstart :: frags.map Instr.hdata ++ [Instr.hfin]) ++ [0x20] :=
  ⟨⟨rfl, rfl, rfl, delivered_stream _ _⟩, rfl, rfl, by decide, by decide, by decide, delivered_stream _ _⟩

theorem witness_EqComparesOperands : ([0x61, 0x62] : List Byte).length = ([0x61, 0x63] : List Byte).length := by decide

/-! ## Witnesses: whole-machine rules -/

/-- A completed command, a fault, and an engine that is not UNINIT. -/
theorem witness_LifecycleTransitions :
    e1Final.flt = false ∧ nextMeets (exec (.erst .e1) e1Final) (fun t => !t.flt) ∧
      nextMeets (exec (.efin .e1) e1Final) (fun t => t.flt) ∧ (e1Final.engine .e1).st ≠ .uninit := by decide +kernel

theorem witness_OtherEngineUntouched :
    nextMeets (exec (.erst .e0) e1Final) (fun t => t.e0.st == .accum) ∧ actsOn (.erst .e0) .e1 = false := by
  decide +kernel

theorem witness_ResultsWrittenOnlyByTheirCommands :
    nextMeets (exec (.eabs .e0 [0x61]) (e0Holding [])) (fun t => !t.flt) ∧
      nextMeets (exec (.eabs .e0 [0x61]) { e0Holding [] with flt := true }) (fun t => t.flt) ∧ (keyed []).kv = true := by
  decide +kernel

theorem witness_EveryCommandHasANextState : State.reset.flt = false := by decide

/-- E0 holding a message shorter than a block stands for it (R22). -/
theorem witness_represents_short : (e0Holding (as 6)).e0.Represents (as 6) :=
  ⟨by decide +kernel, by decide +kernel, by decide +kernel, by decide +kernel⟩

/-- E0 in ACCUM with a message of 6 bytes meets the invariant. -/
theorem witness_inv_accum : (e0Holding (as 6)).Inv where
  engines e := by
    cases e
    · exact ⟨by decide +kernel, fun _ => by decide +kernel, fun _ => ⟨as 6, witness_represents_short⟩,
        fun h => absurd h (by decide +kernel)⟩
    · exact ⟨by decide, fun h => absurd rfl h, fun h => absurd h (by decide), fun h => absurd h (by decide)⟩
  pads h := absurd h (by decide +kernel)
  session h := absurd h (by decide +kernel)
  unfaulted _ := ⟨rfl, rfl⟩
  faulted h := absurd h (by decide +kernel)

/-- The inner engine of an open session stands for IPAD and the fragments. -/
theorem witness_session_represents :
    (inSession [0x6b] [0x61]).e0.Represents ((inSession [0x6b] [0x61]).ipad.toList ++ [0x61]) :=
  ⟨by decide +kernel, by decide +kernel, by decide +kernel, by decide +kernel⟩

/-- An open session, with a key and a fragment absorbed, meets the invariant. -/
theorem witness_inv_session : (inSession [0x6b] [0x61]).Inv where
  engines e := by
    cases e
    · exact ⟨by decide +kernel, fun _ => by decide +kernel, fun _ => ⟨_, witness_session_represents⟩,
        fun h => absurd h (by decide +kernel)⟩
    · exact ⟨by decide, fun h => absurd rfl h, fun h => absurd h (by decide), fun h => absurd h (by decide)⟩
  pads _ := ⟨[0x6b], rfl, rfl⟩
  session _ := ⟨rfl, by decide +kernel, [0x61], witness_session_represents⟩
  unfaulted _ := ⟨rfl, rfl⟩
  faulted h := absurd h (by decide +kernel)

theorem witness_LengthGrowsUntilEngineReset :
    (e0Holding (as 6)).Inv ∧ nextMeets (exec (.eabs .e0 [0x61]) (e0Holding (as 6))) (fun t => t.e0.len == 7) ∧
      ((e0Holding (as 6)).engine .e0).st ≠ .uninit :=
  ⟨witness_inv_accum, by decide +kernel, by decide +kernel⟩

/-- A session state with HFIN delivered: the invariant holds and the step has a next state. -/
theorem witness_StepKeepsInvariant :
    (delivered (inSession [0x6b] [0x61]) [0x13, 0, 0, 0]).Inv ∧
      nextMeets (step (delivered (inSession [0x6b] [0x61]) [0x13, 0, 0, 0])) (fun t => !t.flt && !t.hs) :=
  ⟨⟨witness_inv_session.engines, witness_inv_session.pads, witness_inv_session.session, fun _ => ⟨rfl, rfl⟩,
    fun h => absurd h (by decide +kernel)⟩, by decide +kernel⟩

theorem witness_HostActionsKeepInvariant : (inSession [0x6b] [0x61]).Inv := witness_inv_session

/-- ERST, EABS, HSTART and HDATA, each with its engine's message. -/
theorem witness_EnginesFollowTheirMessages :
    State.reset.hs = false ∧
      ((e0Holding (as 6)).hs = false ∧ ((e0Holding (as 6)).engine .e0).st = .accum ∧
        ((e0Holding (as 6)).engine .e0).Represents (as 6) ∧ (as 6).length + (as 1).length ≤ 2 ^ 61 - 1) ∧
      (keyed []).kv = true ∧
      ((inSession [0x6b] [0x61]).hs = true ∧
        (inSession [0x6b] [0x61]).e0.Represents ((inSession [0x6b] [0x61]).ipad.toList ++ [0x61])) :=
  ⟨by decide, ⟨by decide +kernel, by decide +kernel, witness_represents_short, by decide⟩, by decide +kernel,
    by decide +kernel, witness_session_represents⟩

/-- E0 right after ERST. -/
def afterErst : State := { State.reset with e0 := Engine.initial.reset }

/-- `afterErst` with EFIN delivered. -/
def efinReady : State := delivered afterErst [0x03, 0, 0, 0]

/-- `efinReady` with other values wherever no rule reads: E0's stale bytes, the UNINIT engine's fields, the pads. -/
def efinReadyTwin : State :=
  { efinReady with
    e0 := { Engine.initial.reset with buf := Vector.replicate 64 0xff }
    e1 := { Engine.initial with len := 5, occ := 9 }
    opad := Vector.replicate 64 0xff }

theorem afterErst_inv : afterErst.Inv where
  engines e := by
    cases e
    · exact ⟨by decide, fun _ => by decide, fun _ => ⟨[], by decide, by decide, by decide, rfl⟩,
        fun h => absurd h (by decide)⟩
    · exact ⟨by decide, fun h => absurd rfl h, fun h => absurd h (by decide), fun h => absurd h (by decide)⟩
  pads h := absurd h (by decide)
  session h := absurd h (by decide)
  unfaulted _ := ⟨rfl, rfl⟩
  faulted h := absurd h (by decide)

/-- Two different states with one meaning, and a step from them that has a next state. -/
theorem witness_UnspecifiedValuesAreUnobservable :
    efinReady ≠ efinReadyTwin ∧ efinReady.Inv ∧ efinReady.SameMeaning efinReadyTwin ∧
      nextMeets (step efinReady) (fun t => t.e0.st == .final) where
  left := by decide +kernel
  right :=
    ⟨⟨afterErst_inv.engines, afterErst_inv.pads, afterErst_inv.session, fun _ => ⟨rfl, rfl⟩,
      fun h => absurd h (by decide)⟩,
    { engines := fun e => by
        cases e
        · exact ⟨rfl, fun _ => rfl, fun _ => rfl, fun _ => rfl, fun _ => rfl⟩
        · exact ⟨rfl, fun h => absurd h (by decide), fun h => absurd h (by decide), fun h => absurd h (by decide),
            fun h => absurd h (by decide)⟩
      kv := rfl, ipad := fun h => absurd h (by decide), opad := fun h => absurd h (by decide)
      hs := rfl, eqr := rfl, dout := rfl, flt := rfl, fcause := rfl, fhdr := rfl, spos := rfl, stream := rfl },
    by decide +kernel⟩

end Sys2Proof.Tests
end

section
/-! PROOF. Byte order (R10): the number that a big-endian byte sequence stands for, and statement O1. -/

namespace Sys2Proof.Proofs

theorem toNat_append_byte {w : Nat} (x : BitVec w) (b : Byte) : (x ++ b).toNat = x.toNat * 2 ^ 8 + b.toNat := by
  rw [BitVec.toNat_append, ← Nat.shiftLeft_add_eq_or_of_lt b.isLt, Nat.shiftLeft_eq]

theorem be32_toNat (b0 b1 b2 b3 : Byte) :
    (be32 b0 b1 b2 b3).toNat = b0.toNat * 2 ^ 24 + b1.toNat * 2 ^ 16 + b2.toNat * 2 ^ 8 + b3.toNat := by
  rw [be32, toNat_append_byte, toNat_append_byte, toNat_append_byte]
  omega

/-- One step of reading a byte sequence as a big-endian number. -/
def appendByte (n : Nat) (b : Byte) : Nat := 256 * n + b.toNat

/-- Reading the four bytes of a word after a number shifts that number by 32 bits and adds the word. -/
theorem foldl_appendByte_bytes32 (w : Word) (n : Nat) :
    (bytes32 w).foldl appendByte n = 2 ^ 32 * n + w.toNat := by
  have hw := be32_toNat (w.extractLsb' 24 8) (w.extractLsb' 16 8) (w.extractLsb' 8 8) (w.extractLsb' 0 8)
  rw [be32_bytes32] at hw
  simp only [bytes32, List.foldl_cons, List.foldl_nil, appendByte]
  omega

/-- The two halves of a doubleword, read one after the other, give its value. -/
theorem foldl_appendByte_bytes64 (v : DWord) : (bytes64 v).foldl appendByte 0 = v.toNat := by
  rw [bytes64, List.foldl_append, foldl_appendByte_bytes32, foldl_appendByte_bytes32]
  simp only [BitVec.extractLsb'_toNat, Nat.shiftRight_eq_div_pow]
  omega

/-- Settles O1: both inverse laws are those of `Laws/Bytes`, and the number of `bytes64` is that of its two words. -/
theorem bigEndianConversions : Obligations.BigEndianConversions :=
  ⟨fun b0 b1 b2 b3 => ⟨be32_toNat b0 b1 b2 b3, bytes32_be32 b0 b1 b2 b3⟩,
    fun w => ⟨rfl, be32_bytes32 w⟩,
    fun v => ⟨bytes64_length v, foldl_appendByte_bytes64 v⟩⟩

end Sys2Proof.Proofs
end

section
/-! PROOF. The lifecycle states (R19): what each command's effect leaves in each engine's `ST`, and statement O44. -/

namespace Sys2Proof.Proofs

open Sys2Proof.Machine

/-- Writing one engine, seen from any engine (R18). -/
theorem engine_setEngine_eq_ite (s : State) (e e' : EngineId) (g : Engine) :
    (s.setEngine e' g).engine e = if e = e' then g else s.engine e := by
  split_ifs with h
  · rw [h, State.engine_setEngine]
  · exact State.engine_setEngine_ne s g h

/-- The effect of a command moves each engine's lifecycle state as R19 says. -/
theorem effectOf_engine_st (i : Instr) (s : State) (e : EngineId) :
    ((effectOf i s).engine e).st = lifecycleAfter i e (s.engine e).st := by
  cases i with
  | erst e' | efin e' =>
    simp only [effectOf, State.engine_with_dout, engine_setEngine_eq_ite, lifecycleAfter]
    split_ifs <;> rfl
  | eabs e' data =>
    simp only [effectOf, engine_setEngine_eq_ite, lifecycleAfter]
    split_ifs with h
    · rw [Engine.absorb_st, h]
    · rfl
  | hkey | eqCheck => simp [effectOf, lifecycleAfter]
  | hstart | hdata | hfin => cases e <;> simp [effectOf, State.engine, lifecycleAfter]

/-- "No command moves an engine back to UNINIT" (R19). -/
theorem lifecycleAfter_ne_uninit (i : Instr) (e : EngineId) {st : Lifecycle} (h : st ≠ .uninit) :
    lifecycleAfter i e st ≠ .uninit := by
  cases i with
  | erst | efin | hstart =>
    simp only [lifecycleAfter]
    split_ifs
    · exact nofun
    · exact h
  | eabs | hkey | hdata | eqCheck => exact h
  | hfin => exact nofun

/-- Every command has a next state (R92). -/
theorem exec_next (i : Instr) (s : State) : ∃ t, exec i s = .next t :=
  exec_eq_guarded i s ▸ guarded_next i (checksOf i s) s (effectOf i s)

/-- Settles O44: a completed command leaves each engine as its effect does, and a fault leaves each as it was. -/
theorem lifecycleTransitions : Obligations.LifecycleTransitions := by
  refine ⟨⟨rfl, rfl, rfl⟩, fun _ e => by cases e <;> rfl, fun i s e hs => ?_⟩
  obtain ⟨t, ht⟩ := exec_next i s
  refine ⟨t, ht, ?_⟩
  obtain ⟨-, rfl⟩ | ⟨c, -, rfl⟩ := exec_cases ht
  · have hflt : (effectOf i s).flt = false := (effectOf_frame i s).1.trans hs
    simpa [hflt, effectOf_engine_st] using lifecycleAfter_ne_uninit i e
  · simp

end Sys2Proof.Proofs
end

section
/-! PROOF. The read port (R29, R30, R31): the words of its map, the fields of STATUS, and statements O16 and O17. -/

namespace Sys2Proof.Proofs

open Sys2Proof.Machine

/-! ## The map (R29, R31) -/

/-- Addresses 0x08 to 0x0f are the words of DOUT (R29). -/
theorem readPort_dout (s : State) {a : BitVec 8} (h : 8 ≤ a.toNat) (h' : a.toNat ≤ 15) :
    s.readPort a = s.doutWord (a.toNat - 8) := by
  have hne (n : Nat) (hn : n < 8) : a ≠ BitVec.ofNat 8 n := by bv_omega
  simp [State.readPort, hne, h, h']

/-- The addresses that the map gives no name read as zero (R29). -/
theorem readPort_reserved (s : State) {a : BitVec 8} (h : 6 ≤ a.toNat) (h' : a.toNat < 8 ∨ 16 ≤ a.toNat) :
    s.readPort a = 0 := by
  have hne (n : Nat) (hn : n < 6) : a ≠ BitVec.ofNat 8 n := by bv_omega
  have hd : ¬(8 ≤ a.toNat ∧ a.toNat ≤ 15) := by omega
  simp [State.readPort, hne, hd]

/-- FCAUSE stands in the low byte of its word, with zeros above (R29). -/
theorem readPort_fcause (s : State) :
    (s.readPort 0x01).extractLsb' 0 8 = s.fcause ∧ (s.readPort 0x01).extractLsb' 8 24 = 0 := by
  have hw : s.readPort 0x01 = (0 : BitVec 24) ++ s.fcause :=
    BitVec.setWidth_eq_append (v := 8) (w := 32) (by decide)
  rw [hw]
  exact ⟨BitVec.extractLsb'_append_eq_right, BitVec.extractLsb'_append_eq_left⟩

/-- The word DOUTk is `DOUT[4k]` to `DOUT[4k+3]`, most significant byte first (R29, R37). -/
theorem bytes32_doutWord (s : State) {k : Nat} (hk : k < 8) :
    bytes32 (s.doutWord k) = (s.dout.toList.drop (4 * k)).take 4 := by
  have hb (j : Nat) (hj : j < 4) : s.dout.getD (4 * k + j) 0 = s.dout[4 * k + j] := by
    simp [Vector.getD, show 4 * k + j < 32 by omega]
  rw [State.doutWord, bytes32_be32]
  apply List.ext_getElem
  · simp; omega
  · intro j hj _
    rw [List.getElem_take, List.getElem_drop, Vector.getElem_toList, ← hb j hj]
    match j, hj with
    | 0, _ | 1, _ | 2, _ | 3, _ => rfl

/-- PARAM's value, from the parameters of R6 (R31). -/
theorem paramWord_eq : paramWord = 0x00124020 := by decide

/-- Settles O16, range by range of the map: the named words, the two reserved words below DOUT, DOUT, and all above. -/
theorem readPortMap : Obligations.ReadPortMap := by
  intro s
  obtain ⟨hcause, hzero⟩ := readPort_fcause s
  refine ⟨rfl, hcause, hzero, rfl, rfl, rfl, paramWord_eq, ?_, ?_, fun k => ?_, fun a ha => ?_⟩
  · exact readPort_reserved s (by decide) (by decide)
  · exact readPort_reserved s (by decide) (by decide)
  · have ha : (BitVec.ofNat 8 (8 + k.val)).toNat = 8 + k.val := by simp; omega
    rw [readPort_dout s (by omega) (by omega), ha, Nat.add_sub_cancel_left, bytes32_doutWord s k.isLt]
  · exact readPort_reserved s (by omega) (.inr ha)

/-! ## STATUS (R30) -/

theorem status_e0st (s : State) : s.status.extractLsb' 0 2 = s.e0.st.code := by
  rw [State.status, BitVec.extractLsb'_append_eq_right]

theorem status_e1st (s : State) : s.status.extractLsb' 2 2 = s.e1.st.code := by
  rw [State.status, BitVec.extractLsb'_append_eq_of_le (by decide), BitVec.extractLsb'_append_eq_right]

theorem status_flags (s : State) :
    s.status.getLsbD 4 = s.kv ∧ s.status.getLsbD 5 = s.hs ∧ s.status.getLsbD 6 = s.eqr ∧ s.status.getLsbD 7 = s.flt := by
  simp only [State.status, BitVec.getLsbD_append]
  simp

/-- The bits above the six fields of STATUS are zero: each field below them is passed over in turn. -/
theorem status_reserved (s : State) : s.status.extractLsb' 8 24 = 0 := by
  rw [State.status]
  iterate 5 rw [BitVec.extractLsb'_append_eq_of_le (by decide)]
  exact BitVec.extractLsb'_append_eq_left

theorem reset_doutWord (k : Nat) : State.reset.doutWord k = 0 := by
  have hz (i : Nat) : State.reset.dout.getD i 0 = 0 := by
    simp only [State.reset, Vector.getD, Vector.toArray_replicate, Array.getD_eq_getD_getElem?, Array.getElem?_replicate]
    split_ifs <;> rfl
  simp only [State.doutWord, hz]
  rfl

/-- Right after reset every word of the map but PARAM is zero (R29, R30, R94). -/
theorem reset_readPort_of_ne {a : BitVec 8} (h : a ≠ 0x05) : State.reset.readPort a = 0 := by
  simp only [State.readPort, if_neg h, reset_doutWord]
  split_ifs <;> rfl

/-- Settles O17, field by field; after reset PARAM alone is not zero. -/
theorem statusFields : Obligations.StatusFields := by
  intro s
  obtain ⟨hkv, hhs, heqr, hflt⟩ := status_flags s
  refine ⟨status_e0st s, status_e1st s, hkv, hhs, heqr, hflt, status_reserved s, fun a => ?_⟩
  split_ifs with ha
  · rw [ha]; exact paramWord_eq
  · exact reset_readPort_of_ne ha

end Sys2Proof.Proofs
end

section
/-! PROOF. The decoder (R46 to R53): what it says of a header word, and that it reads back every encoding; the header
faults of a step; statements O3 and O6. -/

namespace Sys2Proof.Proofs

open Sys2Proof.Machine

/-! ## The fields of a header word (R46, R50, R51) -/

theorem ofByte_eq_some_iff {b : Byte} {op : Opcode} : Opcode.ofByte b = some op ↔ op.code = b :=
  ⟨Opcode.code_of_ofByte, fun h => h ▸ Opcode.ofByte_code op⟩

/-- An OPC names an opcode exactly when it is one of the eight defined values (R51). -/
theorem ofByte_eq_none_iff {b : Byte} : Opcode.ofByte b = none ↔ b ∉ Opcode.all.map Opcode.code := by
  simp [Opcode.ofByte]

theorem takesEngine_eq_false_iff (op : Opcode) :
    op.takesEngine = false ↔ op.code ∉ ([0x01, 0x02, 0x03] : List Byte) := by
  cases op <;> decide

theorem reservedSet_eq_true_iff (op : Opcode) (hdr : Word) :
    reservedSet op hdr = true ↔
      rsv1Field hdr ≠ 0 ∨ rsv0Field hdr ≠ 0 ∨ (op.takesEngine = false ∧ eField hdr ≠ 0) := by
  simp [reservedSet, or_assoc]

theorem reservedSet_eq_false_iff (op : Opcode) (hdr : Word) :
    reservedSet op hdr = false ↔
      rsv1Field hdr = 0 ∧ rsv0Field hdr = 0 ∧ (op.takesEngine = true ∨ eField hdr = 0) := by
  cases h : op.takesEngine <;> simp [reservedSet, h, and_assoc]

/-! ## Match and mask (R50) -/

/-- The match value and the mask by fields: the mask leaves out the E bit of the commands that take an engine. -/
theorem matchMask_fields (op : Opcode) :
    (opcField op.matchMask.1 = op.code ∧ rsv1Field op.matchMask.1 = 0 ∧ eField op.matchMask.1 = 0 ∧
      rsv0Field op.matchMask.1 = 0) ∧
    opcField op.matchMask.2 = BitVec.allOnes 8 ∧ rsv1Field op.matchMask.2 = BitVec.allOnes 7 ∧
      (op.takesEngine = false → eField op.matchMask.2 = BitVec.allOnes 1) ∧
      rsv0Field op.matchMask.2 = BitVec.allOnes 16 := by
  cases op <;> decide

/-- A header word is its opcode's match value with the E bit set in it (R50). -/
theorem mkHeader_eq_match_or (op : Opcode) (e : BitVec 1) :
    mkHeader op e = op.matchMask.1 ||| (e.setWidth 32 <<< 16) := by
  cases op <;> revert e <;> decide

/-- A header word with no reserved bit set passes its opcode's mask and match. -/
theorem mkHeader_and_mask {op : Opcode} {e : BitVec 1} (h : op.takesEngine = true ∨ e = 0) :
    mkHeader op e &&& op.matchMask.2 = op.matchMask.1 := by
  revert h; cases op <;> revert e <;> decide

/-- The fields of a word that passes an opcode's mask and match are those of the match value. -/
theorem fields_of_matches {op : Opcode} {hdr : Word} (h : hdr &&& op.matchMask.2 = op.matchMask.1) :
    op.code = opcField hdr ∧ reservedSet op hdr = false := by
  obtain ⟨⟨hop, hr1, he, hr0⟩, mop, mr1, me, mr0⟩ := matchMask_fields op
  rw [← h] at hop hr1 he hr0
  simp only [opcField, rsv1Field, eField, rsv0Field, BitVec.extractLsb'_and] at *
  rw [mop, BitVec.and_allOnes] at hop
  rw [mr1, BitVec.and_allOnes] at hr1
  rw [mr0, BitVec.and_allOnes] at hr0
  refine ⟨hop.symm, (reservedSet_eq_false_iff op hdr).mpr ⟨hr1, hr0, ?_⟩⟩
  cases ht : op.takesEngine with
  | true => exact .inl rfl
  | false =>
    rw [me ht, BitVec.and_allOnes] at he
    exact .inr he

/-- Mask and match select the headers that the decoder reads as the opcode, no reserved bit set (R50). -/
theorem matches_iff (op : Opcode) (hdr : Word) :
    hdr &&& op.matchMask.2 = op.matchMask.1 ↔ Opcode.ofByte (opcField hdr) = some op ∧ reservedSet op hdr = false := by
  rw [ofByte_eq_some_iff]
  refine ⟨fields_of_matches, fun ⟨hop, hr⟩ => ?_⟩
  obtain ⟨-, -, he⟩ := (reservedSet_eq_false_iff op hdr).mp hr
  rw [mkHeader_of_fields hop.symm hr]
  exact mkHeader_and_mask he

/-- Settles O3: a header word is its match value with the E bit set in it, and `matches_iff` is the rest. -/
theorem headerWordsAndMasks : Obligations.HeaderWordsAndMasks :=
  ⟨fun e _ _ _ _ _ =>
    ⟨mkHeader_eq_match_or .erst e.bit, mkHeader_eq_match_or .eabs e.bit, mkHeader_eq_match_or .efin e.bit,
      mkHeader_eq_match_or .hkey 0, mkHeader_eq_match_or .hstart 0, mkHeader_eq_match_or .hdata 0,
      mkHeader_eq_match_or .hfin 0, mkHeader_eq_match_or .eqCheck 0, rfl⟩,
    matches_iff⟩

/-! ## The decoder on a header word (R51, R53) -/

theorem decode_illegalOpcode {hdr : Word} (h : Opcode.ofByte (opcField hdr) = none) (rest : List Byte) :
    decode (bytes32 hdr ++ rest) = .illegalOpcode hdr := by
  simp only [decode, readWord_bytes32, h]

theorem decode_reservedField {hdr : Word} {op : Opcode} (hop : Opcode.ofByte (opcField hdr) = some op)
    (hr : reservedSet op hdr = true) (rest : List Byte) : decode (bytes32 hdr ++ rest) = .reservedField hdr := by
  simp only [decode, readWord_bytes32, hop, hr, if_true]

theorem decode_mkHeader {op : Opcode} {e : BitVec 1} (h : op.takesEngine = true ∨ e = 0) (rest : List Byte) :
    decode (bytes32 (mkHeader op e) ++ rest) = decodeOperands op (EngineId.ofBit e) rest := by
  simp [decode, opcField_mkHeader, Opcode.ofByte_code, reservedSet_mkHeader h, eField_mkHeader]

/-! ## The decoder on an encoding (R47, R53) -/

theorem decodePayload_encodePayload {data : List Byte} (h : payloadWf data = true) (mk : List Byte → Instr)
    (rest : List Byte) : decodePayload mk (encodePayload data ++ rest) = .command (mk data) rest := by
  simp only [decodePayload, readPayload_encodePayload h]

theorem engineBit_of_not_takesEngine (i : Instr) : i.opcode.takesEngine = true ∨ i.engineBit = 0 := by
  cases i with
  | erst | eabs | efin => exact .inl rfl
  | hkey | hstart | hdata | hfin | eqCheck => exact .inr rfl

/-- The payloads of a well-formed command read back as its operands. -/
theorem decodeOperands_payloads {i : Instr} (h : i.wf = true) (rest : List Byte) :
    decodeOperands i.opcode (EngineId.ofBit i.engineBit) (i.payloads.flatMap encodePayload ++ rest) =
      .command i rest := by
  cases i with
  | erst e | efin e =>
    simp [Instr.opcode, Instr.engineBit, Instr.payloads, decodeOperands, EngineId.ofBit_bit]
  | hstart | hfin => rfl
  | eabs e data =>
    simpa [Instr.opcode, Instr.engineBit, Instr.payloads, decodeOperands, EngineId.ofBit_bit] using
      decodePayload_encodePayload h (Instr.eabs e) rest
  | hkey data | hdata data =>
    simpa [Instr.opcode, Instr.payloads, decodeOperands] using decodePayload_encodePayload h _ rest
  | eqCheck a b =>
    obtain ⟨ha, hb⟩ : payloadWf a = true ∧ payloadWf b = true := by simpa [Instr.wf] using h
    simp [Instr.opcode, Instr.payloads, decodeOperands, decodePayloads, readPayload_encodePayload ha,
      decodePayload_encodePayload hb]

/-- Every command the encoding admits is read back whole, and the bytes after it are left. -/
theorem decode_encode {i : Instr} (h : i.wf = true) (rest : List Byte) :
    decode (encode i ++ rest) = .command i rest := by
  rw [encode, List.append_assoc, Instr.header, decode_mkHeader (engineBit_of_not_takesEngine i),
    decodeOperands_payloads h]

/-! ## The step on a bad header (R51, R88) -/

theorem raiseFault_eq_afterFault (s : State) (c : Cause) (hdr : Word) : s.raiseFault c hdr = s.afterFault c.code hdr :=
  rfl

theorem step_illegalOpcode {s : State} {hdr : Word} (hs : s.flt = false) (h : decode s.stream = .illegalOpcode hdr) :
    step s = .next (s.afterFault 1 hdr) := by
  simp [step, State.fetch, hs, h, raiseFault_eq_afterFault, Cause.code]

theorem step_reservedField {s : State} {hdr : Word} (hs : s.flt = false) (h : decode s.stream = .reservedField hdr) :
    step s = .next (s.afterFault 2 hdr) := by
  simp [step, State.fetch, hs, h, raiseFault_eq_afterFault, Cause.code]

/-- Settles O6: the decoder names the fault from the header word alone, the opcode check first. -/
theorem badHeadersFault : Obligations.BadHeadersFault := by
  intro s hdr rest hs hstream
  refine ⟨fun hopc => ?_, fun hopc hres => ?_⟩
  · refine step_illegalOpcode hs ?_
    rw [hstream, decode_illegalOpcode (ofByte_eq_none_iff.mpr hopc)]
  · obtain ⟨op, -, hop⟩ := List.mem_map.mp (show opcField hdr ∈ Opcode.all.map Opcode.code from hopc)
    have hr : reservedSet op hdr = true := by
      rw [reservedSet_eq_true_iff, takesEngine_eq_false_iff, hop]
      exact hres
    refine step_reservedField hs ?_
    rw [hstream, decode_reservedField (ofByte_eq_some_iff.mpr hop) hr]

end Sys2Proof.Proofs
end

section
/-! PROOF. Commands that run from the stream (R17, R41, R53): one step per encoded command whose checks pass, so a
sequence of them takes the core through their effects, one after the other. -/

namespace Sys2Proof.Proofs

open Sys2Proof.Machine

/-- A next state goes before the steps that follow it. -/
theorem steps_succ {s t : State} (h : step s = .next t) (k : Nat) : steps (k + 1) s = steps k t := by
  simp only [steps, h]

/-- An unfaulted core whose stream begins with an encoding executes that command (R34, R53). -/
theorem step_encode {s : State} {i : Instr} {rest : List Byte} (hs : s.flt = false) (hi : i.wf = true)
    (hstream : s.stream = encode i ++ rest) : step s = exec i { s with stream := rest } := by
  simp only [step, State.fetch, hs, hstream, decode_encode hi, Bool.false_eq_true, if_false]

/-- The state after command `i` when its checks pass: its effect, and SPOS past it (R12, R17). -/
def completed (i : Instr) (s : State) : State := (effectOf i s).complete i.size

theorem completed_flt (i : Instr) (s : State) : (completed i s).flt = s.flt := (effectOf_frame i s).1

/-- A completing command carries the bytes after it along. -/
theorem completed_stream (i : Instr) (s : State) (bs : List Byte) :
    completed i { s with stream := bs } = { completed i s with stream := bs } := by
  rw [completed, effectOf_stream]
  rfl

/-- An encoded command whose checks pass takes one step to its completed state. -/
theorem step_completed {s : State} {i : Instr} {rest : List Byte} (hs : s.flt = false) (hi : i.wf = true)
    (hpass : ∀ p ∈ checksOf i s, p.1 = false) :
    step { s with stream := encode i ++ rest } = .next { completed i s with stream := rest } := by
  rw [step_encode (s := { s with stream := encode i ++ rest }) hs hi rfl, exec_eq_guarded,
    guarded_pass (by rw [checksOf_stream]; exact hpass), ← completed_stream]
  rfl

/-- `Completes s is t`: executed from `s`, the commands `is` pass their checks one after the other and leave `t`. -/
inductive Completes : State → List Instr → State → Prop
  | nil (s : State) : Completes s [] s
  | cons {s t : State} {i : Instr} {is : List Instr} (hpass : ∀ p ∈ checksOf i s, p.1 = false)
      (htail : Completes (completed i s) is t) : Completes s (i :: is) t

theorem Completes.single {s : State} {i : Instr} (h : ∀ p ∈ checksOf i s, p.1 = false) :
    Completes s [i] (completed i s) :=
  .cons h (.nil _)

theorem Completes.append {s t u : State} {is js : List Instr} (h : Completes s is t) (h' : Completes t js u) :
    Completes s (is ++ js) u := by
  induction h with
  | nil => exact h'
  | cons hpass _ ih => exact .cons hpass (ih h')

/-- Commands that complete raise no fault. -/
theorem Completes.flt {s t : State} {is : List Instr} (h : Completes s is t) : t.flt = s.flt := by
  induction h with
  | nil => rfl
  | cons _ _ ih => rw [ih, completed_flt]

/-- Commands that complete, placed on the stream, run in one step each, and the bytes after them are left (R41). -/
theorem Completes.steps_placed {s t : State} {is : List Instr} (h : Completes s is t) (hs : s.flt = false)
    (hwf : ∀ i ∈ is, i.wf = true) (rest : List Byte) :
    steps is.length { s with stream := encodeAll is ++ rest } = some { t with stream := rest } := by
  induction h with
  | nil => rfl
  | @cons s t i is hpass _ ih =>
    obtain ⟨hi, his⟩ := List.forall_mem_cons.mp hwf
    rw [encodeAll, List.flatMap_cons, List.append_assoc, List.length_cons, steps_succ (step_completed hs hi hpass)]
    exact ih ((completed_flt i s).trans hs) his

theorem Completes.steps {s t : State} {is : List Instr} {rest : List Byte} {n : Nat} (h : Completes s is t)
    (hn : is.length = n) (hs : s.flt = false) (hwf : ∀ i ∈ is, i.wf = true)
    (hstream : s.stream = encodeAll is ++ rest) : steps n s = some { t with stream := rest } := by
  rw [← hn, ← h.steps_placed hs hwf rest, ← hstream]

/-- Commands that each absorb one byte sequence, run over a list of them: what one of them does to the message `m` that
`Holds` speaks of, all of them do with the concatenation. -/
theorem completes_map {mk : List Byte → Instr} {Holds : List Byte → State → Prop}
    (hstep : ∀ m c s, Holds m s → m.length + c.length ≤ Config.lmax →
      (∀ p ∈ checksOf (mk c) s, p.1 = false) ∧ Holds (m ++ c) (completed (mk c) s))
    {m : List Byte} {cs : List (List Byte)} {s : State} (hm : Holds m s)
    (hl : m.length + cs.flatten.length ≤ Config.lmax) :
    ∃ t, Completes s (cs.map mk) t ∧ Holds (m ++ cs.flatten) t := by
  induction cs generalizing m s with
  | nil => exact ⟨s, .nil s, by simpa using hm⟩
  | cons c cs ih =>
    simp only [List.flatten_cons, List.length_append] at hl
    obtain ⟨hpass, hc⟩ := hstep m c s hm (by omega)
    obtain ⟨t, ht, hmt⟩ := ih hc (by simp only [List.length_append]; omega)
    exact ⟨t, .cons hpass ht, by simpa using hmt⟩

end Sys2Proof.Proofs
end

section
/-! PROOF. The pseudo-instructions (R56): the digest of a chunked message (R70, R71), the tag of an HMAC session (R78 to
R80) and of a given key (R77, R81), and statement O42. -/

namespace Sys2Proof.Proofs

open Sys2Proof.Machine

/-! ## The engine that stands for a message (R22) -/

/-- An engine that stands for `m` has room for `n` bytes more when the whole stays within LMAX (R74). -/
theorem lengthOverflow_eq_false {g : Engine} {m : List Byte} {n : Nat} (h : g.Represents m)
    (hl : m.length + n ≤ Config.lmax) : g.lengthOverflow n = false := by
  simpa [Engine.lengthOverflow, h.len] using hl

/-- A freshly reset engine that absorbs `m` stands for `m`. -/
theorem reset_absorb_represents (g : Engine) {m : List Byte} (hl : m.length ≤ Config.lmax) :
    (g.reset.absorb m).Represents m := by
  simpa using (Engine.reset_represents g).absorb m (by simpa using hl)

theorem byteVec_toList_of_length_eq {n : Nat} {bs : List Byte} (h : bs.length = n) : (byteVec n bs).toList = bs := by
  rw [byteVec_toList h.ge, ← h, List.take_length]

/-! ## DIGEST (R56, R70, R72, R73, R75) -/

/-- Outside a session, engine `e` accumulates and stands for the message `m`. -/
structure Accumulating (e : EngineId) (m : List Byte) (s : State) : Prop where
  hs : s.hs = false
  st : (s.engine e).st = .accum
  msg : (s.engine e).Represents m

theorem accumulating_erst (e : EngineId) {s : State} (h : s.hs = false) :
    Accumulating e [] (completed (.erst e) s) where
  hs := by simpa [completed, effectOf] using h
  st := by simp [completed, effectOf]
  msg := by simpa [completed, effectOf] using Engine.reset_represents (s.engine e)

/-- EABS passes its checks and appends its payload to the message (R22, R73). -/
theorem accumulating_eabs (e : EngineId) (m c : List Byte) (s : State) (h : Accumulating e m s)
    (hl : m.length + c.length ≤ Config.lmax) :
    (∀ p ∈ checksOf (.eabs e c) s, p.1 = false) ∧ Accumulating e (m ++ c) (completed (.eabs e c) s) := by
  refine ⟨?_, ?_, ?_, ?_⟩
  · simp [checksOf, h.hs, h.st, lengthOverflow_eq_false h.msg hl]
  · simpa [completed, effectOf] using h.hs
  · simpa [completed, effectOf] using h.st
  · simpa [completed, effectOf] using h.msg.absorb c hl

/-- EFIN passes its checks and leaves the message's digest in DOUT (R69, R75). -/
theorem accumulating_efin {e : EngineId} {m : List Byte} {s : State} (h : Accumulating e m s)
    (hl : m.length ≤ Config.lmax) :
    (∀ p ∈ checksOf (.efin e) s, p.1 = false) ∧ (completed (.efin e) s).dout.toList = sha256 m := by
  refine ⟨by simp [checksOf, h.hs, h.st], ?_⟩
  rw [← h.msg.digest hl]
  exact byteVec_toList_of_length_eq (Engine.digest_length _)

/-- ERST, any number of EABS and EFIN complete and leave the digest of the chunks' concatenation in DOUT. -/
theorem completes_digest (e : EngineId) {cs : List (List Byte)} {s : State} (hs : s.hs = false)
    (hl : cs.flatten.length ≤ Config.lmax) :
    ∃ t, Completes s (.erst e :: cs.map (Instr.eabs e) ++ [.efin e]) t ∧ t.dout.toList = sha256 cs.flatten ∧
      (t.engine e).st = .final := by
  obtain ⟨t, ht, hmsg⟩ := completes_map (accumulating_eabs e) (accumulating_erst e hs) (by simpa using hl)
  obtain ⟨hpass, hdout⟩ := accumulating_efin hmsg hl
  refine ⟨completed (.efin e) t, (Completes.cons ?_ ht).append (.single hpass), hdout, ?_⟩
  · simp [checksOf, hs]
  · rw [completed, State.complete_engine, effectOf_engine_st]
    exact if_pos rfl

/-! ## HDIGEST (R56, R78, R79, R80) -/

/-- A session is open on the key whose outer pad is `opad`, and E0 stands for the message `m`. -/
structure InSession (opad : Block) (m : List Byte) (s : State) : Prop where
  hs : s.hs = true
  kv : s.kv = true
  opad : s.opad = opad
  msg : s.e0.Represents m

theorem inSession_hstart {s : State} (h : s.kv = true) :
    InSession s.opad s.ipad.toList (completed .hstart s) :=
  ⟨rfl, h, rfl, reset_absorb_represents s.e0 (by rw [Vector.length_toList]; decide)⟩

/-- HDATA passes its checks and appends its fragment to the message (R22, R79). -/
theorem inSession_hdata (opad : Block) (m c : List Byte) (s : State) (h : InSession opad m s)
    (hl : m.length + c.length ≤ Config.lmax) :
    (∀ p ∈ checksOf (.hdata c) s, p.1 = false) ∧ InSession opad (m ++ c) (completed (.hdata c) s) :=
  ⟨by simp [checksOf, h.hs, lengthOverflow_eq_false h.msg hl], h.hs, h.kv, h.opad, h.msg.absorb c hl⟩

/-- HFIN's outer engine stands for OPAD followed by the inner digest (R80). -/
theorem hfinOuter_represents (s : State) : (hfinOuter s).Represents (s.opad.toList ++ s.e0.digest) := by
  have hlen : s.opad.toList.length = 64 := Vector.length_toList
  exact (reset_absorb_represents s.e1 (by rw [hlen]; decide)).absorb _ (by rw [hlen, Engine.digest_length]; decide)

/-- HFIN passes its check, leaves the tag in DOUT and closes the session with the key kept (R80). -/
theorem inSession_hfin {opad : Block} {m : List Byte} {s : State} (h : InSession opad m s)
    (hl : m.length ≤ Config.lmax) :
    (∀ p ∈ checksOf .hfin s, p.1 = false) ∧
      (completed .hfin s).dout.toList = sha256 (opad.toList ++ sha256 m) ∧
      (completed .hfin s).hs = false ∧ (completed .hfin s).kv = true := by
  refine ⟨by simp [checksOf, h.hs], ?_, rfl, h.kv⟩
  have hlen : (s.opad.toList ++ s.e0.digest).length ≤ Config.lmax := by
    rw [List.length_append, Vector.length_toList, Engine.digest_length]; decide
  rw [← h.opad, ← h.msg.digest hl, ← (hfinOuter_represents s).digest hlen]
  exact byteVec_toList_of_length_eq (Engine.digest_length _)

/-- With a key held, HSTART, any number of HDATA and HFIN complete and leave the tag under the pads held in DOUT. -/
theorem completes_hdigest {frags : List (List Byte)} {s : State} (hkv : s.kv = true)
    (hl : 64 + frags.flatten.length ≤ Config.lmax) :
    ∃ t, Completes s (.hstart :: frags.map Instr.hdata ++ [.hfin]) t ∧
      t.dout.toList = sha256 (s.opad.toList ++ sha256 (s.ipad.toList ++ frags.flatten)) ∧
      t.hs = false ∧ t.kv = true := by
  obtain ⟨t, ht, hmsg⟩ := completes_map (inSession_hdata s.opad) (inSession_hstart hkv) (by simpa using hl)
  obtain ⟨hpass, htag⟩ := inSession_hfin hmsg (by simpa using hl)
  exact ⟨completed .hfin t, (Completes.cons (by simp [checksOf, hkv]) ht).append (.single hpass), htag⟩

/-! ## HMAC (R56, R76, R77, R81) -/

/-- A pad is the normalized key XOR the pad byte, position by position (R77). -/
theorem padOf_toList (c : Byte) (key : List Byte) : (padOf c (normKey key)).toList = (normKey key).map (· ^^^ c) :=
  byteVec_toList_of_length_eq (by rw [List.length_map, normKey_length])

/-- Outside a session, HKEY and HDIGEST's commands complete and leave the tag under the given key in DOUT. -/
theorem completes_hmac (key : List Byte) {frags : List (List Byte)} {s : State} (hs : s.hs = false)
    (hl : 64 + frags.flatten.length ≤ Config.lmax) :
    ∃ t, Completes s (.hkey key :: .hstart :: frags.map Instr.hdata ++ [.hfin]) t ∧
      t.dout.toList =
        sha256 ((normKey key).map (· ^^^ 0x5c) ++ sha256 ((normKey key).map (· ^^^ 0x36) ++ frags.flatten)) ∧
      t.hs = false ∧ t.kv = true := by
  obtain ⟨t, ht, hdout, hclosed, hkv⟩ := completes_hdigest (s := completed (.hkey key) s) rfl hl
  refine ⟨t, .cons (by simp [checksOf, hs]) ht, ?_, hclosed, hkv⟩
  rw [hdout]
  exact congrArg₂ (fun o i => sha256 (o ++ sha256 (i ++ frags.flatten)))
    (padOf_toList Config.opadc key) (padOf_toList Config.ipadc key)

/-! ## The expansions on the stream (R56) -/

/-- Fragments that fit their length words are well-formed HDATA commands, between HSTART and HFIN (R47). -/
theorem hdigest_wf {frags : List (List Byte)} (h : ∀ f ∈ frags, payloadWf f = true) :
    ∀ i ∈ (.hstart :: frags.map Instr.hdata ++ [.hfin]), i.wf = true := by
  simp only [List.cons_append, List.forall_mem_cons, List.forall_mem_append, List.forall_mem_map]
  exact ⟨rfl, h, rfl, nofun⟩

theorem length_le_lmax_of_payloadWf {m : List Byte} (h : payloadWf m = true) : m.length ≤ Config.lmax :=
  (of_decide_eq_true h).le.trans (by decide)

/-- Settles O42: each expansion completes with its result in DOUT, and so runs from the stream in one step a command. -/
theorem pseudoInstructionResults : Obligations.PseudoInstructionResults := by
  intro s rest hflt hhs
  refine ⟨fun e m hm hstream => ⟨rfl, ?_⟩, fun frags hkv hf hl hstream => ⟨rfl, ?_⟩,
    fun key frags hkey hf hl hstream => ⟨rfl, ?_⟩⟩
  · obtain ⟨t, ht, hdout, -⟩ := completes_digest e (cs := [m]) hhs (by simpa using length_le_lmax_of_payloadWf hm)
    have hwf : ∀ i ∈ [Instr.erst e, .eabs e m, .efin e], i.wf = true := by simpa [Instr.wf] using hm
    exact ⟨_, ht.steps rfl hflt hwf hstream, ht.flt.trans hflt, rfl, by simpa using hdout⟩
  · obtain ⟨t, ht, hdout, -⟩ := completes_hdigest hkv hl
    exact ⟨_, ht.steps (by simp) hflt (hdigest_wf hf) hstream, ht.flt.trans hflt, rfl, hdout⟩
  · obtain ⟨t, ht, hdout, -⟩ := completes_hmac key hhs hl
    have hwf : ∀ i ∈ (.hkey key :: .hstart :: frags.map Instr.hdata ++ [.hfin]), i.wf = true :=
      List.forall_mem_cons.mpr ⟨hkey, hdigest_wf hf⟩
    exact ⟨_, ht.steps (by simp) hflt hwf hstream, ht.flt.trans hflt, rfl, hdout⟩

end Sys2Proof.Proofs
end

section
/-! PROOF. The Compression Core (R57 to R65): the constant tables, the word functions bit by bit, the schedule as a
growing list, the rounds as a sequence of working variables, and statements O25 to O28. -/

namespace Sys2Proof.Proofs

open Sys2Proof.Machine

/-! ## The word functions (R9, R61) -/

theorem getLsbD_rotr (x : Word) {n i : Nat} (hn : 0 < n) (hn' : n < 32) (hi : i < 32) :
    (rotr x n).getLsbD i = x.getLsbD ((i + n) % 32) := by
  simp only [rotr, BitVec.getLsbD_or, BitVec.getLsbD_ushiftRight, BitVec.getLsbD_shiftLeft]
  obtain h | h := Nat.lt_or_ge (i + n) 32
  · rw [Nat.mod_eq_of_lt h, Nat.add_comm n i]
    simp [show i < 32 - n by omega]
  · rw [show (i + n) % 32 = i - (32 - n) by omega, BitVec.getLsbD_of_ge x (n + i) (by omega)]
    simp [hi, show ¬i < 32 - n by omega]

theorem getLsbD_shr (x : Word) (n i : Nat) : (shr x n).getLsbD i = x.getLsbD (i + n) := by
  rw [shr, BitVec.getLsbD_ushiftRight, Nat.add_comm]

theorem getLsbD_ch (x y z : Word) {i : Nat} (hi : i < 32) :
    (ch x y z).getLsbD i = if x.getLsbD i then y.getLsbD i else z.getLsbD i := by
  simp only [ch, BitVec.getLsbD_xor, BitVec.getLsbD_and, BitVec.getLsbD_not, hi, decide_true, Bool.true_and]
  cases x.getLsbD i <;> simp

theorem getLsbD_maj (x y z : Word) (i : Nat) :
    (maj x y z).getLsbD i = if x.getLsbD i = y.getLsbD i then x.getLsbD i else z.getLsbD i := by
  simp only [maj, BitVec.getLsbD_xor, BitVec.getLsbD_and]
  cases x.getLsbD i <;> cases y.getLsbD i <;> simp

/-- Settles O26: each word function has its law above, and the four sigma functions are defined as R61 gives them. -/
theorem wordFunctions : Obligations.WordFunctions := fun x y z =>
  ⟨fun _ _ => getLsbD_rotr x, fun n i _ _ => getLsbD_shr x n i, fun _ => getLsbD_ch x y z,
    fun i _ => getLsbD_maj x y z i, rfl, rfl, rfl, rfl⟩

/-! ## The message schedule (R62) -/

/-- The word that the recurrence of R62 gives at `t`, from the words before it. -/
def recurrenceWord (w : List Word) (t : Nat) : Word :=
  ssig1 (w.getD (t - 2) 0) + w.getD (t - 7) 0 + ssig0 (w.getD (t - 15) 0) + w.getD (t - 16) 0

theorem scheduleStep_eq (w : List Word) (t : Nat) : scheduleStep w t = w ++ [recurrenceWord w t] := rfl

/-- The schedule after the 16 words of the block and `n` steps of the recurrence. -/
def schedulePrefix (b : Block) (n : Nat) : List Word :=
  (List.range' 16 n).foldl scheduleStep ((List.range 16).map (blockWord b))

theorem messageSchedule_eq_schedulePrefix (b : Block) : messageSchedule b = schedulePrefix b 48 := rfl

theorem schedulePrefix_succ (b : Block) (n : Nat) :
    schedulePrefix b (n + 1) = schedulePrefix b n ++ [recurrenceWord (schedulePrefix b n) (16 + n)] := by
  rw [schedulePrefix, List.range'_1_concat, List.foldl_append, List.foldl_cons, scheduleStep_eq]
  rfl

@[simp] theorem schedulePrefix_length (b : Block) (n : Nat) : (schedulePrefix b n).length = 16 + n := by
  induction n with
  | zero => rfl
  | succ n ih => rw [schedulePrefix_succ, List.length_append, ih]; rfl

/-- A later step changes no word that stands already. -/
theorem schedulePrefix_getD {b : Block} {n m t : Nat} (hnm : n ≤ m) (ht : t < 16 + n) :
    (schedulePrefix b m).getD t 0 = (schedulePrefix b n).getD t 0 := by
  induction m, hnm using Nat.le_induction with
  | base => rfl
  | succ m hnm ih => rw [schedulePrefix_succ, List.getD_append _ _ _ _ (by simp; omega), ih]

theorem messageSchedule_length (b : Block) : (messageSchedule b).length = 64 :=
  schedulePrefix_length b 48

theorem messageSchedule_getD_block (b : Block) {t : Nat} (ht : t < 16) :
    (messageSchedule b).getD t 0 = blockWord b t := by
  rw [messageSchedule_eq_schedulePrefix, schedulePrefix_getD (Nat.zero_le 48) ht]
  simp [schedulePrefix, ht]

/-- The recurrence at `16 + n` reads only words that stand after `n` steps. -/
theorem recurrenceWord_schedulePrefix {b : Block} {n m : Nat} (hnm : n ≤ m) :
    recurrenceWord (schedulePrefix b m) (16 + n) = recurrenceWord (schedulePrefix b n) (16 + n) := by
  simp (disch := omega) only [recurrenceWord, schedulePrefix_getD hnm]

theorem messageSchedule_getD_recurrence (b : Block) {t : Nat} (ht : 16 ≤ t) (ht' : t < 64) :
    (messageSchedule b).getD t 0 = recurrenceWord (messageSchedule b) t := by
  obtain ⟨n, rfl⟩ := Nat.exists_eq_add_of_le ht
  have hn : n + 1 ≤ 48 := by omega
  calc (schedulePrefix b 48).getD (16 + n) 0
    _ = (schedulePrefix b (n + 1)).getD (16 + n) 0 := schedulePrefix_getD hn (by omega)
    _ = recurrenceWord (schedulePrefix b n) (16 + n) := by simp [schedulePrefix_succ]
    _ = recurrenceWord (schedulePrefix b 48) (16 + n) := (recurrenceWord_schedulePrefix (by omega)).symm

/-- Four consecutive bytes of a vector, as a stretch of its list. -/
theorem take_four_drop_toList {n i : Nat} (v : Vector Byte n) (h : i + 3 < n) :
    (v.toList.drop i).take 4 = [v.getD i 0, v.getD (i + 1) 0, v.getD (i + 2) 0, v.getD (i + 3) 0] := by
  have hget (j : Nat) (hj : j < n) : v.toList.drop j = v.getD j 0 :: v.toList.drop (j + 1) := by
    rw [List.drop_eq_getElem_cons (by simpa using hj), Vector.getElem_toList]
    simp [Vector.getD, hj]
  rw [hget i (by omega), hget (i + 1) (by omega), hget (i + 2) (by omega), hget (i + 3) h]
  rfl

theorem bytes32_blockWord (b : Block) {t : Nat} (ht : t < 16) :
    bytes32 (blockWord b t) = (b.toList.drop (4 * t)).take 4 := by
  rw [blockWord, bytes32_be32, take_four_drop_toList b (by omega)]

/-- Settles O27: a schedule word is fixed when it is appended, by the block up to 16 and by the recurrence from there. -/
theorem messageScheduleRecurrence : Obligations.MessageScheduleRecurrence := fun b =>
  ⟨messageSchedule_length b,
    fun t => by rw [messageSchedule_getD_block b t.isLt, bytes32_blockWord b t.isLt],
    fun _ => messageSchedule_getD_recurrence b⟩

/-! ## The rounds (R63, R64) -/

/-- The working variables of a compression before round `t` (after all of them, at 64). -/
def workingBefore (s : DigestState) (b : Block) (t : Nat) : Working :=
  rounds ((roundConstants.zip (messageSchedule b)).take t) (workingOf s)

theorem rounds_concat (kws : List (Word × Word)) (k w : Word) (v : Working) :
    rounds (kws ++ [(k, w)]) v = round (rounds kws v) k w := by
  rw [rounds, List.foldl_append]
  rfl

theorem workingBefore_succ (s : DigestState) (b : Block) {t : Nat} (ht : t < 64) :
    workingBefore s b (t + 1) =
      round (workingBefore s b t) (roundConstants.getD t 0) ((messageSchedule b).getD t 0) := by
  have hk : t < roundConstants.length := ht
  have hw : t < (messageSchedule b).length := by rwa [messageSchedule_length]
  have hkw : t < (roundConstants.zip (messageSchedule b)).length := by rw [List.length_zip]; omega
  rw [workingBefore, List.take_succ_eq_append_getElem hkw, List.getElem_zip, rounds_concat, List.getD_eq_getElem _ _ hk,
    List.getD_eq_getElem _ _ hw]
  rfl

theorem compress_eq_feedForward (s : DigestState) (b : Block) :
    compress s b = feedForward s (workingBefore s b 64) := by
  rw [compress, workingBefore, List.take_of_length_le]
  rw [List.length_zip, messageSchedule_length]
  decide

/-- Settles O28: the working variables before each round are those of the definition's own fold. -/
theorem compressionRounds : Obligations.CompressionRounds := fun s b =>
  ⟨workingBefore s b, rfl, fun _ => workingBefore_succ s b, compress_eq_feedForward s b⟩

/-! ## The constants (R59, R60) -/

/-- The primes up to 311, as R59 and R60 count them. -/
def firstPrimes : List Nat :=
  [2, 3, 5, 7, 11, 13, 17, 19, 23, 29, 31, 37, 41, 43, 47, 53] ++
  [59, 61, 67, 71, 73, 79, 83, 89, 97, 101, 103, 107, 109, 113, 127, 131] ++
  [137, 139, 149, 151, 157, 163, 167, 173, 179, 181, 191, 193, 197, 199, 211, 223] ++
  [227, 229, 233, 239, 241, 251, 257, 263, 269, 271, 277, 281, 283, 293, 307, 311]

theorem filter_prime_range_312 :
    ((List.range 312).filter fun n => 2 ≤ n && (List.range n).all fun d => d < 2 || n % d != 0) = firstPrimes := by
  decide +kernel

/-- `c + w / 2 ^ 32` is the `e`-th root of `p`, rounded down to 32 fractional bits, and `c` is its integral part. -/
def IsRootWithFraction (e p c : Nat) (w : Word) : Prop :=
  c ^ e < p ∧ p < (c + 1) ^ e ∧
    (c * 2 ^ 32 + w.toNat) ^ e ≤ p * 2 ^ (32 * e) ∧ p * 2 ^ (32 * e) < (c * 2 ^ 32 + w.toNat + 1) ^ e

theorem roundConstants_cubeRoots : ∀ p ∈ firstPrimes.zip roundConstants, ∃ c < 7, IsRootWithFraction 3 p.1 c p.2 := by
  unfold IsRootWithFraction
  decide

theorem initialState_squareRoots :
    ∀ p ∈ (firstPrimes.take 8).zip initialState.toList, ∃ c < 5, IsRootWithFraction 2 p.1 c p.2 := by
  unfold IsRootWithFraction
  decide

/-- Settles O25: the sieve's primes are `firstPrimes`, and each table's roots are checked on them. -/
theorem constantsAreRootFractions : Obligations.ConstantsAreRootFractions := by
  refine ⟨rfl, ?_⟩
  rw [filter_prime_range_312]
  exact ⟨rfl, roundConstants_cubeRoots, initialState_squareRoots⟩

end Sys2Proof.Proofs
end

section
/-! PROOF. The Digest Engine's procedures (R66 to R71): the pad in natural numbers, `sha256` as the fold over the padded
blocks, absorbing in chunks, and statements O31, O34 and O35. -/

namespace Sys2Proof.Proofs

open Sys2Proof.Machine

/-! ## The pad (R68) -/

/-- The pad fills the block that holds the `r` bytes before it, or that block and the next. -/
theorem add_padBytes_length {r : Nat} (hr : r ≤ 63) (len : DWord) :
    r + (padBytes r len).length = if r ≤ 55 then 64 else 128 := by
  rw [padBytes_length]
  split_ifs <;> omega

/-- Settles O31: the number of zero bytes is the residue of R68, and three bits are free above a length within LMAX. -/
theorem padFillsWholeBlocks : Obligations.PadFillsWholeBlocks := fun r len hr hlen =>
  ⟨((55 - (r : Int)) % 64).toNat, by omega, by omega, rfl, add_padBytes_length hr len,
    by rw [BitVec.toNat_mul]; exact Nat.mod_eq_of_lt (show 8 * len.toNat < 2 ^ 64 by omega)⟩

/-- The pad of the model is the pad written with natural numbers. -/
theorem padBytes_ofNat {r : Nat} (hr : r ≤ 63) (n : Nat) : padBytes r (BitVec.ofNat 64 n) = padFor r n := by
  have hz : ((55 - (r : Int)) % 64).toNat = (119 - r) % 64 := by omega
  rw [padBytes, padFor, hz, BitVec.ofNat_mul]
  rfl

theorem padBytes_eq_padFor {r : Nat} (hr : r ≤ 63) (len : DWord) : padBytes r len = padFor r len.toNat := by
  rw [← padBytes_ofNat hr, BitVec.ofNat_toNat, BitVec.setWidth_eq]

/-! ## SHA-256 (R70) -/

/-- A message and its pad are a whole number of blocks. -/
theorem append_padBytes_length_mod (m : List Byte) (len : DWord) :
    (m ++ padBytes (m.length % 64) len).length % 64 = 0 := by
  have hpad := add_padBytes_length (r := m.length % 64) (by omega) len
  rw [List.length_append]
  split_ifs at hpad <;> omega

/-- Settles O34: a fresh engine that has absorbed `m` stands for `m`, and so its digest is the fold over `m` and its pad
(`Engine.Represents.digest_eq`). -/
theorem sha256IsTheBlockFold : Obligations.Sha256IsTheBlockFold := by
  intro m hm
  have hmsg : (Engine.initial.reset.absorb m).Represents m := reset_absorb_represents Engine.initial hm
  rw [← padBytes_ofNat (by omega)]
  exact ⟨append_padBytes_length_mod m _, hmsg.digest_eq⟩

/-! ## Chunking (R66, R67, R71) -/

/-- What `a` leaves pending, followed by `b`, is what the whole blocks up to the end of `a` leave of all the bytes. -/
theorem absorb_pending_append {g : Engine} (a b : List Byte) (h : g.occ.toNat ≤ 63) :
    (g.absorb a).pending ++ b = (g.pending ++ (a ++ b)).drop (64 * ((g.pending ++ a).length / 64)) := by
  obtain ⟨-, -, hpending, -, -⟩ := Engine.absorb_spec a h
  rw [hpending, ← List.append_assoc, List.drop_append_of_le_length (Nat.mul_div_le _ _)]

/-- Settles O35: the blocks compressed for `a` and those for `b` are, one after the other, the blocks of `a ++ b`. -/
theorem chunkingInvariance : Obligations.ChunkingInvariance := by
  intro g a b _ hg
  obtain ⟨ha, -, -, -, -⟩ := Engine.absorb_spec a hg
  obtain ⟨hb, hocc, hpending, -, -⟩ := Engine.absorb_spec b (Engine.absorb_occ_le a hg)
  obtain ⟨hab, hocc', hpending', -, -⟩ := Engine.absorb_spec (a ++ b) hg
  rw [absorb_pending_append a b hg] at hb hocc hpending
  rw [← List.append_assoc] at *
  generalize g.pending ++ a = xs at *
  have hblocks : (xs ++ b).length / 64 = xs.length / 64 + ((xs ++ b).drop (64 * (xs.length / 64))).length / 64 := by
    rw [List.length_append, List.length_drop, List.length_append]
    omega
  have hoccs : ((g.absorb a).absorb b).occ = (g.absorb (a ++ b)).occ := by
    apply BitVec.eq_of_toNat_eq
    rw [hocc, hocc', List.length_drop, List.length_append]
    omega
  refine ⟨?_, hoccs, ?_, ?_⟩
  · rw [hb, hab, ha, hblocks, compressBlocks_add, compressBlocks_append _ _ b (Nat.mul_div_le _ _)]
  · rw [Engine.absorb_len, Engine.absorb_len, Engine.absorb_len, List.length_append, BitVec.ofNat_add, BitVec.add_assoc]
  · rw [List.drop_drop, ← Nat.mul_add, ← hblocks, ← hpending'] at hpending
    rwa [Engine.pending, Engine.pending, hoccs] at hpending

end Sys2Proof.Proofs
end

section
/-! PROOF. The engine commands (R72 to R75): what a command does whose checks pass and whose first check fails, the
length limit, and statements O23, O29, O30 and O32. -/

namespace Sys2Proof.Proofs

open Sys2Proof.Machine

/-! ## A command's two outcomes (R17, R87, R88) -/

theorem exec_completed {i : Instr} {s : State} (h : firstFailing (checksOf i s) = none) :
    exec i s = .next (completed i s) := by
  rw [exec_eq_guarded, guarded_pass (firstFailing_eq_none.mp h)]
  rfl

theorem exec_afterFault {i : Instr} {s : State} (c : Cause) (h : firstFailing (checksOf i s) = some c) :
    exec i s = .next (s.afterFault c.code i.header) := by
  rw [exec_eq_guarded, guarded_fail h, raiseFault_eq_afterFault]

/-! ## Encodings in the words of R72, R73 and R75 -/

/-- A command's header on the stream is its opcode's match value with the E bit set in it (R50). -/
theorem encode_eq (i : Instr) :
    encode i = bytes32 (i.opcode.matchMask.1 ||| (i.engineBit.setWidth 32 <<< 16)) ++
      i.payloads.flatMap encodePayload := by
  rw [encode, Instr.header, mkHeader_eq_match_or]

theorem encode_of_payloads_nil {i : Instr} (h : i.payloads = []) :
    encode i = bytes32 (i.opcode.matchMask.1 ||| (i.engineBit.setWidth 32 <<< 16)) := by
  rw [encode_eq, h, List.flatMap_nil, List.append_nil]

theorem encode_of_payloads_singleton {i : Instr} {data : List Byte} (h : i.payloads = [data]) :
    encode i = bytes32 (i.opcode.matchMask.1 ||| (i.engineBit.setWidth 32 <<< 16)) ++
      bytes32 (BitVec.ofNat 32 data.length) ++ data := by
  rw [encode_eq, h, List.flatMap_singleton, encodePayload, List.append_assoc]

/-! ## Writing back what an engine holds -/

theorem setEngine_eq_self {s : State} {e : EngineId} {g : Engine} (h : s.engine e = g) : s.setEngine e g = s := by
  subst h
  cases e <;> rfl

theorem complete_setEngine (s : State) (e : EngineId) (g : Engine) (n : Nat) :
    (s.setEngine e g).complete n = { s.setEngine e g with spos := s.spos + BitVec.ofNat 64 n } := by
  rw [State.complete, State.setEngine_spos]

/-! ## ERST (R72) -/

theorem exec_erst {s : State} (e : EngineId) (h : s.hs = false) : exec (.erst e) s = .next (completed (.erst e) s) :=
  exec_completed (by simp [checksOf, h])

/-- Settles O29: a second engine reset writes back what the first one left. -/
theorem erstResetsTheEngine : Obligations.ErstResetsTheEngine := by
  intro s e
  refine ⟨encode_of_payloads_nil rfl, fun h => exec_afterFault .engineOwned (by simp [checksOf, h]), fun h => ?_⟩
  have hreset : (completed (.erst e) s).engine e = ((completed (.erst e) s).engine e).reset := by
    simp [completed, effectOf, Engine.reset]
  exact ⟨_, _, exec_erst e h, complete_setEngine s e _ 4, exec_erst e (by simpa [completed, effectOf] using h),
    congrArg (State.complete · 4) (setEngine_eq_self hreset)⟩

/-! ## The length limit (R74) -/

/-- The length counter does not wrap within LMAX. -/
theorem absorb_len_toNat {g : Engine} {data : List Byte} (h : g.len.toNat + data.length ≤ 2 ^ 61 - 1) :
    (g.absorb data).len.toNat = g.len.toNat + data.length := by
  rw [Engine.absorb_len, BitVec.toNat_add, BitVec.toNat_ofNat]
  omega

/-- A command whose one check left is that of R74, on a sum of `n` bytes. -/
theorem exec_of_lengthLimit {i : Instr} {s : State} {n : Nat}
    (h : firstFailing (checksOf i s) = if n > 2 ^ 61 - 1 then some .lengthOverflow else none) :
    ∃ t, exec i s = .next t ∧ (n > 2 ^ 61 - 1 → t = s.afterFault 9 i.header) ∧
      (n ≤ 2 ^ 61 - 1 → t = completed i s) := by
  by_cases hn : n > 2 ^ 61 - 1
  · exact ⟨_, exec_afterFault .lengthOverflow (h.trans (if_pos hn)), fun _ => rfl, fun hle => absurd hn hle.not_gt⟩
  · exact ⟨_, exec_completed (h.trans (if_neg hn)), fun hgt => absurd hgt hn, fun _ => rfl⟩

theorem firstFailing_eabs {s : State} {e : EngineId} (data : List Byte) (hs : s.hs = false)
    (hst : (s.engine e).st = .accum) :
    firstFailing (checksOf (.eabs e data) s) =
      if (s.engine e).len.toNat + data.length > 2 ^ 61 - 1 then some .lengthOverflow else none := by
  simp [checksOf, hs, hst, firstFailing, Engine.lengthOverflow, Config.lmax]

theorem firstFailing_hdata {s : State} (frag : List Byte) (hs : s.hs = true) :
    firstFailing (checksOf (.hdata frag) s) =
      if s.e0.len.toNat + frag.length > 2 ^ 61 - 1 then some .lengthOverflow else none := by
  simp [checksOf, hs, firstFailing, Engine.lengthOverflow, Config.lmax]

/-- Settles O23: the check of R74 is on natural numbers, and within the limit the 64-bit counter adds as they do. -/
theorem lengthLimit : Obligations.LengthLimit := by
  intro s e data
  refine ⟨fun hs hst => ?_, fun hs => ?_, fun hkv => ?_, fun hs => ?_⟩
  · obtain ⟨t, ht, hover, hfits⟩ := exec_of_lengthLimit (firstFailing_eabs data hs hst)
    refine ⟨t, ht, hover, fun hn => ?_⟩
    rw [hfits hn]
    exact ⟨completed_flt _ s, by simpa [completed, effectOf] using absorb_len_toNat hn⟩
  · obtain ⟨t, ht, hover, hfits⟩ := exec_of_lengthLimit (firstFailing_hdata data hs)
    refine ⟨t, ht, hover, fun hn => ?_⟩
    rw [hfits hn]
    exact ⟨rfl, absorb_len_toNat hn⟩
  · exact ⟨_, exec_completed (by simp [checksOf, hkv]), rfl, by simp [completed, effectOf]⟩
  · exact ⟨_, exec_completed (by simp [checksOf, hs]), rfl, by simp [completed, effectOf, hfinOuter]⟩

/-! ## EABS (R73) -/

theorem writeBytes_nil (buf : Block) {pos : Nat} (h : pos ≤ 64) : writeBytes buf pos [] = buf := by
  apply Vector.toList_inj.mp
  rw [writeBytes_toList (bs := []) h]
  simp

/-- Filling from no byte moves none, and a buffer of at most 63 bytes is not full. -/
theorem fill_nil {g : Engine} (h : g.occ.toNat ≤ 63) : g.fill [] = g := by
  have hne : g.occ.toNat ≠ 64 := by omega
  simp [Engine.fill, Engine.fillCount, hne, writeBytes_nil g.buf (h.trans (by decide))]

theorem absorbRest_nil (g : Engine) : g.absorbRest [] = g := rfl

/-- Absorbing no byte leaves the engine as it is, stale buffer bytes too. -/
theorem absorb_nil {g : Engine} (h : g.occ.toNat ≤ 63) : g.absorb [] = g := by
  simp [Engine.absorb, Engine.absorbBlocks, fill_nil h, absorbRest_nil]

theorem exec_eabs {s : State} {e : EngineId} {data : List Byte} (hs : s.hs = false) (hst : (s.engine e).st = .accum)
    (hl : (s.engine e).len.toNat + data.length ≤ 2 ^ 61 - 1) :
    exec (.eabs e data) s = .next
      { s.setEngine e ((s.engine e).absorb data) with spos := s.spos + BitVec.ofNat 64 (8 + data.length) } := by
  rw [exec_completed ((firstFailing_eabs data hs hst).trans (if_neg hl.not_gt)), ← complete_setEngine]
  rfl

/-- Settles O30: `Engine.absorb_spec` says the effect of the bytes pending and the payload. -/
theorem eabsAbsorbsThePayload : Obligations.EabsAbsorbsThePayload := by
  intro s e data
  refine ⟨encode_of_payloads_singleton rfl, fun hs => exec_afterFault .engineOwned (by simp [checksOf, hs]),
    fun hs hst => exec_afterFault .engineUninit (by simp [checksOf, hs, hst]),
    fun hs hst => exec_afterFault .engineFinalized (by simp [checksOf, hs, hst]),
    fun hs hst hl => exec_afterFault .lengthOverflow ((firstFailing_eabs data hs hst).trans (if_pos hl)),
    fun hs hst hocc hl => ?_, fun hs hst hocc hl => ?_⟩
  · obtain ⟨hh, hocc', hpending, -, -⟩ := Engine.absorb_spec data hocc
    have hlen : ((s.engine e).pending ++ data).length = (s.engine e).occ.toNat + data.length := by
      rw [List.length_append, Engine.pending_length hocc]
    rw [hlen] at hh hpending
    exact ⟨_, exec_eabs hs hst hl, (Engine.absorb_st _ data).trans hst, absorb_len_toNat hl, hh, hocc', hpending⟩
  · rw [exec_eabs (data := []) hs hst hl, absorb_nil hocc, setEngine_eq_self rfl]
    rfl

/-! ## EFIN (R69, R75) -/

/-- The pending bytes and the pad are one block when the pad fits behind them, and two when not (R69). -/
theorem pending_append_padBytes_blocks {g : Engine} (h : g.occ.toNat ≤ 63) :
    (g.pending ++ padBytes g.occ.toNat g.len).length / 64 = if g.occ.toNat ≤ 55 then 1 else 2 := by
  rw [List.length_append, Engine.pending_length h, add_padBytes_length h]
  split_ifs <;> rfl

theorem exec_efin {s : State} {e : EngineId} (hs : s.hs = false) (hst : (s.engine e).st = .accum) :
    exec (.efin e) s = .next
      { s.setEngine e (s.engine e).finalize with dout := byteVec 32 (s.engine e).digest, spos := s.spos + 4 } := by
  rw [exec_completed (by simp [checksOf, hs, hst]), completed, effectOf, State.complete, State.setEngine_spos]
  rfl

/-- Settles O32: `Engine.finalize_spec` says the effect, and the pad is the one or two blocks it compresses. -/
theorem efinFinalizesTheEngine : Obligations.EfinFinalizesTheEngine := by
  intro s e
  refine ⟨encode_of_payloads_nil rfl, fun hs => exec_afterFault .engineOwned (by simp [checksOf, hs]),
    fun hs hst => exec_afterFault .engineUninit (by simp [checksOf, hs, hst]),
    fun hs hst => exec_afterFault .engineFinalized (by simp [checksOf, hs, hst]), fun hs hst hocc _ => ?_⟩
  obtain ⟨hh, hocc', hst', hlen'⟩ := Engine.finalize_spec hocc
  rw [pending_append_padBytes_blocks hocc, padBytes_eq_padFor hocc] at hh
  exact ⟨_, _, exec_efin hs hst, hst', hocc', hlen', hh,
    byteVec_toList_of_length_eq (Engine.digest_length (s.engine e))⟩

end Sys2Proof.Proofs
end

section
/-! PROOF. The HMAC driver (R76 to R82): the tag of a key and its fragments, the effect of each of its commands, its
ownership of both engines in a session, and statements O22 and O37 to O41. -/

namespace Sys2Proof.Proofs

open Sys2Proof.Machine

/-! ## The tag (R81) -/

/-- Settles O41: the commands complete with the tag in DOUT, and so run from the stream in one step each. -/
theorem hmacTagOfKeyAndFragments : Obligations.HmacTagOfKeyAndFragments := by
  intro s key frags rest hflt hhs hkey hfrags hl hstream
  obtain ⟨t, ht, hdout, hclosed, hkv⟩ := completes_hmac key hhs hl
  have hwf : ∀ i ∈ (Pseudo.hmac key frags).expand, i.wf = true :=
    List.forall_mem_cons.mpr ⟨hkey, hdigest_wf hfrags⟩
  exact ⟨_, ht.steps (by simp) hflt hwf hstream, ht.flt.trans hflt, rfl, hclosed, hkv, hdout⟩

/-! ## The commands without an engine select (R46, R50): their encodings and their faults -/

/-- The header word of a command whose E bit is 0 is its opcode's match value (R50). -/
theorem header_eq_match {i : Instr} (he : i.engineBit = 0) : i.header = i.opcode.matchMask.1 := by
  rw [Instr.header, mkHeader_eq_match_or, he]
  simp

theorem encode_match_nil {i : Instr} (he : i.engineBit = 0) (h : i.payloads = []) :
    encode i = bytes32 i.opcode.matchMask.1 := by
  rw [encode, header_eq_match he, h, List.flatMap_nil, List.append_nil]

theorem encode_match_singleton {i : Instr} {data : List Byte} (he : i.engineBit = 0) (h : i.payloads = [data]) :
    encode i = bytes32 i.opcode.matchMask.1 ++ bytes32 (BitVec.ofNat 32 data.length) ++ data := by
  rw [encode, header_eq_match he, h, List.flatMap_singleton, encodePayload, List.append_assoc]

theorem exec_afterFault_match {i : Instr} {s : State} (c : Cause) (he : i.engineBit = 0)
    (h : firstFailing (checksOf i s) = some c) : exec i s = .next (s.afterFault c.code i.opcode.matchMask.1) := by
  rw [exec_afterFault c h, header_eq_match he]

/-! ## HKEY (R76, R77) -/

/-- The normalized key, with the number of zero bytes behind a hashed key worked out (R76). -/
theorem normKey_eq_ite (key : List Byte) :
    normKey key = if 64 < key.length then sha256 key ++ zeros 32 else key ++ zeros (64 - key.length) := by
  split_ifs with h
  · simp [normKey, h]
  · simp [normKey, h]

theorem exec_hkey {s : State} (key : List Byte) (hs : s.hs = false) :
    exec (.hkey key) s = .next
      { s with
        ipad := padOf Config.ipadc (normKey key)
        opad := padOf Config.opadc (normKey key)
        kv := true
        spos := s.spos + BitVec.ofNat 64 (8 + key.length) } := by
  rw [exec_completed (by simp [checksOf, hs]), completed, effectOf, State.complete]
  rfl

/-- Settles O37: each pad is the normalized key XOR its pad byte (`padOf_toList`). -/
theorem hkeyDerivesBothPads : Obligations.HkeyDerivesBothPads := by
  intro s key
  refine ⟨encode_match_singleton rfl rfl, fun hs => exec_afterFault_match .sessionActive rfl (by simp [checksOf, hs]),
    fun hs => ⟨_, _, exec_hkey key hs, ?_⟩⟩
  rw [← normKey_eq_ite]
  exact ⟨normKey_length key, padOf_toList Config.ipadc key, padOf_toList Config.opadc key⟩

/-! ## HSTART (R78) -/

/-- A freshly reset engine absorbs a block in one compression, and its buffer is empty after it. -/
theorem reset_absorb_block (g : Engine) (b : Block) :
    (g.reset.absorb b.toList).h = compress initialState b ∧ (g.reset.absorb b.toList).occ = 0 := by
  have hpending : g.reset.pending = [] := List.take_zero
  obtain ⟨hh, hocc, -, -, -⟩ := Engine.absorb_spec (g := g.reset) b.toList (by simp)
  rw [hpending, List.nil_append, Vector.length_toList] at hh hocc
  exact ⟨hh.trans (congrArg (compress initialState) (byteVec_of_toList b)), BitVec.eq_of_toNat_eq hocc⟩

theorem exec_hstart {s : State} (hkv : s.kv = true) :
    exec .hstart s = .next
      { s with e0 := s.e0.reset.absorb s.ipad.toList, hs := true, spos := s.spos + 4 } :=
  exec_completed (by simp [checksOf, hkv])

/-- Settles O38: IPAD is one block, so `reset_absorb_block` says the effect. -/
theorem hstartOpensTheSession : Obligations.HstartOpensTheSession := by
  intro s
  refine ⟨encode_match_nil rfl rfl, fun hkv => exec_afterFault_match .noKey rfl (by simp [checksOf, hkv]),
    fun hkv => ?_⟩
  obtain ⟨hh, hocc⟩ := reset_absorb_block s.e0 s.ipad
  exact ⟨_, exec_hstart hkv, Engine.absorb_st _ _, hh, hocc, by simp⟩

/-! ## HDATA (R79) -/

theorem exec_hdata {s : State} {frag : List Byte} (hs : s.hs = true)
    (hl : s.e0.len.toNat + frag.length ≤ 2 ^ 61 - 1) :
    exec (.hdata frag) s = .next
      { s with e0 := s.e0.absorb frag, spos := s.spos + BitVec.ofNat 64 (8 + frag.length) } :=
  exec_completed ((firstFailing_hdata frag hs).trans (if_neg hl.not_gt))

/-- Settles O39: `Engine.absorb_spec` says the effect of the bytes pending and the fragment. -/
theorem hdataAbsorbsTheFragment : Obligations.HdataAbsorbsTheFragment := by
  intro s frag
  refine ⟨encode_match_singleton rfl rfl, fun hs => exec_afterFault_match .noSession rfl (by simp [checksOf, hs]),
    fun hs hl => exec_afterFault_match .lengthOverflow rfl ((firstFailing_hdata frag hs).trans (if_pos hl)),
    fun hs hocc hl => ?_, fun hs hocc hl => ?_⟩
  · obtain ⟨hh, hocc', hpending, hst, -⟩ := Engine.absorb_spec frag hocc
    exact ⟨_, exec_hdata hs hl, hst, absorb_len_toNat hl, hh, hocc', hpending⟩
  · rw [exec_hdata (frag := []) hs hl, absorb_nil hocc]
    rfl

/-! ## HFIN (R80) -/

theorem exec_hfin {s : State} (hs : s.hs = true) :
    exec .hfin s = .next
      { s with
        e0 := s.e0.finalize
        e1 := (hfinOuter s).finalize
        dout := byteVec 32 (hfinOuter s).digest
        hs := false
        spos := s.spos + 4 } :=
  exec_completed (by simp [checksOf, hs])

/-- The outer digest is that of OPAD and the inner digest, 96 bytes (R80). -/
theorem hfinOuter_digest (s : State) : (hfinOuter s).digest = sha256 (s.opad.toList ++ s.e0.digest) := by
  refine (hfinOuter_represents s).digest ?_
  rw [List.length_append, Vector.length_toList, Engine.digest_length]
  decide

theorem hfinOuter_len (s : State) : (hfinOuter s).len = 96 := by
  simp [hfinOuter]

/-- Settles O40: `Engine.finalize_spec` says the effect on both engines, and the outer digest is the tag. -/
theorem hfinProducesTheTag : Obligations.HfinProducesTheTag := by
  intro s
  refine ⟨encode_match_nil rfl rfl, fun hs => exec_afterFault_match .noSession rfl (by simp [checksOf, hs]),
    fun hs hocc _ => ?_⟩
  obtain ⟨hh, hocc0, hst0, hlen0⟩ := Engine.finalize_spec hocc
  obtain ⟨-, hocc1, hst1, hlen1⟩ := Engine.finalize_spec (hfinOuter_represents s).occ_le
  rw [pending_append_padBytes_blocks hocc, padBytes_eq_padFor hocc] at hh
  have htag : (byteVec 32 (hfinOuter s).digest).toList = (hfinOuter s).digest :=
    byteVec_toList_of_length_eq (Engine.digest_length _)
  exact ⟨_, _, _, exec_hfin hs, hst0, hocc0, hlen0, hh, hst1, hocc1, hlen1.trans (hfinOuter_len s), htag.symm,
    htag.trans (hfinOuter_digest s)⟩

/-! ## The session (R82), with EQ's result (R83) -/

/-- Accumulating the differences of pairs of bytes ends at zero exactly when it starts there and no pair differs (R83). -/
theorem foldl_or_xor_eq_zero_iff (ps : List (Byte × Byte)) (acc : Byte) :
    ps.foldl (fun acc p => acc ||| (p.1 ^^^ p.2)) acc = 0 ↔ acc = 0 ∧ ∀ p ∈ ps, p.1 = p.2 := by
  induction ps generalizing acc with
  | nil => simp
  | cons p ps ih =>
    have hdiffer : acc ||| (p.1 ^^^ p.2) = 0 ↔ acc = 0 ∧ p.1 = p.2 := by simp
    rw [List.foldl_cons, ih, hdiffer, List.forall_mem_cons, and_assoc]

theorem eqAccumulate_eq_zero_iff (a b : List Byte) : eqAccumulate a b = 0 ↔ ∀ p ∈ a.zip b, p.1 = p.2 := by
  simp only [eqAccumulate, foldl_or_xor_eq_zero_iff, true_and]

/-- EQ's result is equality of the two byte sequences (R83). -/
theorem eqResult_eq_decide (a b : List Byte) : eqResult a b = decide (a = b) := by
  have hiff : a = b ↔ a.length = b.length ∧ eqAccumulate a b = 0 := by
    rw [eqAccumulate_eq_zero_iff, ← List.forall₂_eq_eq_eq, List.forall₂_iff_zip, Prod.forall]
  simp only [eqResult, hiff]
  split_ifs with hlen
  · simp [hlen]
  · simp [not_not.mp hlen]

theorem exec_eqCheck (s : State) (a b : List Byte) :
    exec (.eqCheck a b) s = .next
      { s with eqr := decide (a = b), spos := s.spos + BitVec.ofNat 64 (12 + a.length + b.length) } := by
  rw [← eqResult_eq_decide]
  exact exec_completed rfl

/-- Settles O22: the first check of each engine command is that no session is open, and EQ has no check. -/
theorem sessionOwnsBothEngines : Obligations.SessionOwnsBothEngines := by
  intro s e data a b hs
  have howned : ∀ i ∈ [Instr.erst e, .eabs e data, .efin e], firstFailing (checksOf i s) = some .engineOwned := by
    simp [checksOf, hs]
  exact ⟨fun i hi => exec_afterFault .engineOwned (howned i hi), exec_eqCheck s a b⟩

end Sys2Proof.Proofs
end

section
/-! PROOF. Comparing two operands (R83): EQ's encoding with its two payloads, the accumulator position by position, and
statement O43. EQ's effect is `exec_eqCheck`, proved with the session's rules. -/

namespace Sys2Proof.Proofs

open Sys2Proof.Machine

theorem encode_match_pair {i : Instr} {a b : List Byte} (he : i.engineBit = 0) (h : i.payloads = [a, b]) :
    encode i = bytes32 i.opcode.matchMask.1 ++ bytes32 (BitVec.ofNat 32 a.length) ++ a ++
      bytes32 (BitVec.ofNat 32 b.length) ++ b := by
  rw [encode, header_eq_match he, h, List.flatMap_cons, List.flatMap_singleton, encodePayload, encodePayload]
  simp only [List.append_assoc]

/-- For operands of equal length, the pairs the accumulator sees are the bytes at each position of the operands (R83). -/
theorem eqAccumulate_eq_zero_iff_getD {a b : List Byte} (hlen : a.length = b.length) :
    eqAccumulate a b = 0 ↔ ∀ i, i < a.length → a.getD i 0 ^^^ b.getD i 0 = 0 := by
  rw [eqAccumulate_eq_zero_iff, List.forall_mem_iff_getElem]
  simp only [List.getElem_zip, List.length_zip, ← hlen, Nat.min_self]
  refine forall₂_congr fun i hi => ?_
  rw [List.getD_eq_getElem _ _ hi, List.getD_eq_getElem _ _ (hlen ▸ hi)]
  exact BitVec.xor_eq_zero_iff.symm

/-- Settles O43: `exec_eqCheck` says the effect, and `eqAccumulate_eq_zero_iff_getD` what the accumulator ends at. -/
theorem eqComparesOperands : Obligations.EqComparesOperands :=
  fun s a b => ⟨encode_match_pair rfl rfl, exec_eqCheck s a b, eqAccumulate_eq_zero_iff_getD⟩

end Sys2Proof.Proofs
end

section
/-! PROOF. The decoder read backwards (R53): what bytes stand behind each of its answers. -/

namespace Sys2Proof.Proofs

theorem bit_ofBit (b : BitVec 1) : (EngineId.ofBit b).bit = b := by revert b; decide

/-- Reading one payload waits for more bytes, or reads an encoded payload (R47). -/
theorem decodePayload_cases (mk : List Byte → Instr) (bs : List Byte) :
    decodePayload mk bs = .incomplete ∨
      ∃ data rest, decodePayload mk bs = .command (mk data) rest ∧ payloadWf data = true ∧
        bs = encodePayload data ++ rest := by
  rw [decodePayload]
  cases h : readPayload bs with
  | none => exact .inl rfl
  | some p => exact .inr ⟨p.1, p.2, rfl, readPayload_eq_some h⟩

/-- Reading two payloads waits for more bytes, or reads two encoded payloads (R47). -/
theorem decodePayloads_cases (mk : List Byte → List Byte → Instr) (bs : List Byte) :
    decodePayloads mk bs = .incomplete ∨
      ∃ a b rest, decodePayloads mk bs = .command (mk a b) rest ∧ payloadWf a = true ∧ payloadWf b = true ∧
        bs = encodePayload a ++ (encodePayload b ++ rest) := by
  rw [decodePayloads]
  cases h : readPayload bs with
  | none => exact .inl rfl
  | some p =>
    obtain ⟨ha, hbs⟩ := readPayload_eq_some h
    obtain hd | ⟨b, rest, hd, hb, hp⟩ := decodePayload_cases (mk p.1) p.2
    · exact .inl hd
    · exact .inr ⟨p.1, b, rest, hd, ha, hb, hp ▸ hbs⟩

/-- Behind a header of opcode `op` the decoder waits for more bytes, or reads the payloads of a well-formed command with
that opcode and the engine selected. -/
theorem decodeOperands_cases (op : Opcode) (e : EngineId) (bs : List Byte) :
    decodeOperands op e bs = .incomplete ∨
      ∃ i rest, decodeOperands op e bs = .command i rest ∧ i.wf = true ∧ i.opcode = op ∧
        i.engineBit = (if op.takesEngine then e.bit else 0) ∧ bs = i.payloads.flatMap encodePayload ++ rest := by
  cases op with
  | erst | efin | hstart | hfin => exact .inr ⟨_, bs, rfl, rfl, rfl, rfl, rfl⟩
  | eabs | hkey | hdata =>
    refine (decodePayload_cases _ bs).imp id fun ⟨data, rest, hd, hwf, hbs⟩ => ⟨_, rest, hd, hwf, rfl, rfl, ?_⟩
    simpa [Instr.payloads] using hbs
  | eqCheck =>
    refine (decodePayloads_cases _ bs).imp id fun ⟨a, b, rest, hd, ha, hb, hbs⟩ => ⟨_, rest, hd, ?_, rfl, rfl, ?_⟩
    · simp [Instr.wf, ha, hb]
    · simpa [Instr.payloads] using hbs

/-- A header word with no reserved bit set is that of any command with its opcode and its engine select (R50). -/
theorem header_eq_of_fields {i : Instr} {hdr : Word} (hop : opcField hdr = i.opcode.code)
    (hr : reservedSet i.opcode hdr = false)
    (he : i.engineBit = if i.opcode.takesEngine then (EngineId.ofBit (eField hdr)).bit else 0) : i.header = hdr := by
  obtain ⟨-, -, htake⟩ := (reservedSet_eq_false_iff i.opcode hdr).mp hr
  have hbit : i.engineBit = eField hdr := by
    rw [he, bit_ofBit]
    split_ifs with ht
    · rfl
    · exact (htake.resolve_left ht).symm
  rw [Instr.header, hbit, ← mkHeader_of_fields hop hr]

/-- All that the decoder can answer: more bytes are needed, the bytes begin with the encoding of a well-formed command, or
they begin with a header word at fault. -/
theorem decode_cases (bs : List Byte) :
    decode bs = .incomplete ∨
      (∃ i rest, decode bs = .command i rest ∧ i.wf = true ∧ bs = encode i ++ rest) ∨
      ∃ hdr rest, (decode bs = .illegalOpcode hdr ∨ decode bs = .reservedField hdr) ∧ bs = bytes32 hdr ++ rest := by
  cases hw : readWord bs with
  | none => exact .inl (by simp only [decode, hw])
  | some p =>
    obtain ⟨hdr, rest⟩ := p
    obtain rfl := readWord_eq_some hw
    cases hop : Opcode.ofByte (opcField hdr) with
    | none => exact .inr (.inr ⟨hdr, rest, .inl (decode_illegalOpcode hop rest), rfl⟩)
    | some op =>
      cases hr : reservedSet op hdr with
      | true => exact .inr (.inr ⟨hdr, rest, .inr (decode_reservedField hop hr rest), rfl⟩)
      | false =>
        have hd : decode (bytes32 hdr ++ rest) = decodeOperands op (EngineId.ofBit (eField hdr)) rest := by
          simp only [decode, readWord_bytes32, hop, hr, Bool.false_eq_true, if_false]
        rw [hd]
        refine (decodeOperands_cases op _ rest).imp id fun ⟨i, rest', hi, hwf, hiop, hbit, hrest⟩ =>
          .inl ⟨i, rest', hi, hwf, ?_⟩
        subst hiop
        rw [encode, header_eq_of_fields (Opcode.code_of_ofByte hop).symm hr hbit, List.append_assoc, ← hrest]

/-- A decoded command is well-formed, and the bytes it was read from are its encoding. -/
theorem encode_of_decode {bs rest : List Byte} {i : Instr} (h : decode bs = .command i rest) :
    i.wf = true ∧ bs = encode i ++ rest := by
  obtain hd | ⟨j, r, hd, hwf, hbs⟩ | ⟨hdr, r, hd | hd, -⟩ := decode_cases bs
  · simp [hd] at h
  · obtain ⟨rfl, rfl⟩ : j = i ∧ r = rest := by simpa [hd] using h
    exact ⟨hwf, hbs⟩
  · simp [hd] at h
  · simp [hd] at h

/-- A header fault is named after the word the bytes begin with (R51). -/
theorem bytes32_of_decode {bs : List Byte} {hdr : Word}
    (h : decode bs = .illegalOpcode hdr ∨ decode bs = .reservedField hdr) : ∃ rest, bs = bytes32 hdr ++ rest := by
  obtain hd | ⟨j, r, hd, -⟩ | ⟨hdr', r, hd | hd, hbs⟩ := decode_cases bs
  · simp [hd] at h
  · simp [hd] at h
  · obtain rfl : hdr' = hdr := by simpa [hd] using h
    exact ⟨r, hbs⟩
  · obtain rfl : hdr' = hdr := by simpa [hd] using h
    exact ⟨r, hbs⟩

end Sys2Proof.Proofs
end

section
/-! PROOF. Faults (R86 to R90): the entry writes the fault fields alone, the first failing check gives the cause, and a
faulted core stays as it is until reset; statements O19 to O21. -/

namespace Sys2Proof.Proofs

open Sys2Proof.Machine

/-! ## The fault entry (R86, R88) -/

theorem cause_code_bounds (c : Cause) : 1 ≤ c.code.toNat ∧ c.code.toNat ≤ 9 := by cases c <;> decide

/-- A command executed without a fault before it either raises none, or takes the fault entry under its own header. -/
theorem exec_flt_cases {i : Instr} {s t : State} (hs : s.flt = false) (h : exec i s = .next t) :
    t.flt = false ∨ ∃ c : Cause, t = s.afterFault c.code i.header := by
  obtain ⟨-, rfl⟩ | ⟨c, -, rfl⟩ := exec_cases h
  · exact .inl ((completed_flt i s).trans hs)
  · exact .inr ⟨c, raiseFault_eq_afterFault s c i.header⟩

/-- A step that ends in a fault took the entry of one cause, under the header word its bytes began with. -/
theorem step_fault {s t : State} (h : step s = .next t) (ht : t.flt = true) :
    ∃ (hdr : Word) (rest : List Byte) (c : Cause), s.stream = bytes32 hdr ++ rest ∧ t = s.afterFault c.code hdr := by
  obtain ⟨hs, ⟨i, rest, hd, he⟩ | ⟨hdr, hd, rfl⟩ | ⟨hdr, hd, rfl⟩⟩ := step_cases h
  · obtain ⟨-, hbs⟩ := encode_of_decode hd
    rw [encode, List.append_assoc] at hbs
    obtain hf | ⟨c, rfl⟩ := exec_flt_cases (s := { s with stream := rest }) hs he
    · simp [hf] at ht
    · exact ⟨i.header, _, c, hbs, rfl⟩
  · obtain ⟨rest, hbs⟩ := bytes32_of_decode (.inl hd)
    exact ⟨hdr, rest, .illegalOpcode, hbs, rfl⟩
  · obtain ⟨rest, hbs⟩ := bytes32_of_decode (.inr hd)
    exact ⟨hdr, rest, .reservedField, hbs, rfl⟩

/-- Settles O19: the entry of `step_fault`, whose cause has a code from 1 to 9. -/
theorem faultEntryIsPrecise : Obligations.FaultEntryIsPrecise := by
  intro s t h ht
  obtain ⟨hdr, rest, c, hstream, rfl⟩ := step_fault h ht
  obtain ⟨hle, hge⟩ := cause_code_bounds c
  exact ⟨hdr, rest, c.code, hstream, hle, hge, rfl⟩

/-! ## The order of the checks (R87) -/

/-- Settles O21: each clause passes the checks of `checksOf` before the one that fails. -/
theorem firstFailingCheckIsReported : Obligations.FirstFailingCheckIsReported := by
  refine ⟨fun s hdr rest hs hstream => ⟨fun hop => ?_, fun op hop hr => ?_⟩, fun s e data => ?_,
    fun s key frag a b => ?_⟩
  · exact step_illegalOpcode hs (hstream ▸ decode_illegalOpcode hop rest)
  · exact step_reservedField hs (hstream ▸ decode_reservedField hop hr rest)
  · refine ⟨fun hs => ⟨?_, ?_, ?_⟩, fun hs hst => ⟨?_, ?_⟩, fun hs hst => ⟨?_, ?_⟩, fun hs hst hl => ?_⟩
    · exact exec_afterFault .engineOwned (by simp [checksOf, hs])
    · exact exec_afterFault .engineOwned (by simp [checksOf, hs])
    · exact exec_afterFault .engineOwned (by simp [checksOf, hs])
    · exact exec_afterFault .engineUninit (by simp [checksOf, hs, hst])
    · exact exec_afterFault .engineUninit (by simp [checksOf, hs, hst])
    · exact exec_afterFault .engineFinalized (by simp [checksOf, hs, hst])
    · exact exec_afterFault .engineFinalized (by simp [checksOf, hs, hst])
    · exact exec_afterFault .lengthOverflow ((firstFailing_eabs data hs hst).trans (if_pos hl))
  · refine ⟨fun hs => ?_, fun hkv => ?_, fun hs => ⟨?_, ?_⟩, fun hs hl => ?_, _, exec_eqCheck s a b, rfl⟩
    · exact exec_afterFault .sessionActive (by simp [checksOf, hs])
    · exact exec_afterFault .noKey (by simp [checksOf, hkv])
    · exact exec_afterFault .noSession (by simp [checksOf, hs])
    · exact exec_afterFault .noSession (by simp [checksOf, hs])
    · exact exec_afterFault .lengthOverflow ((firstFailing_hdata frag hs).trans (if_pos hl))

/-! ## The faulted core (R89, R90) -/

theorem step_of_flt {s : State} (h : s.flt = true) : step s = .fault .coreFaulted := by
  simp [step, State.fetch, h]

theorem deliver_of_flt {s : State} (h : s.flt = true) (bs : List Byte) : s.deliver bs = s := by
  simp [State.deliver, h]

/-- Where no step can be taken, settling changes nothing. -/
theorem settle_of_step_fault {s : State} {r : Fault} (h : step s = .fault r) : s.settle = s := by
  rw [State.settle]
  cases s.stream.length with
  | zero => rfl
  | succ n => simp only [settleWithin, h]

/-- Settles O20: a faulted core has no step, so it settles as it is, and its reads answer from that state. -/
theorem faultIsStickyAndFinal : Obligations.FaultIsStickyAndFinal := by
  intro s h
  have hsettle : s.settle = s := settle_of_step_fault (step_of_flt h)
  exact ⟨step_of_flt h, deliver_of_flt h, hsettle, fun a => congrArg (State.readPort · a) hsettle, rfl, rfl, rfl⟩

end Sys2Proof.Proofs
end

section
/-! PROOF. Waiting (R42, R94, R98, R100): what it says of the core that a step holds, that part of an encoding holds it,
and statements O9 and O15. -/

namespace Sys2Proof.Proofs

open Sys2Proof.Machine

/-! ## Holds of a step (R89, R98, R100) -/

/-- An unfaulted core whose delivered bytes are no whole command waits, for a header or for the rest (R34). -/
theorem step_of_incomplete {s : State} (hs : s.flt = false) (h : decode s.stream = .incomplete) :
    step s = .fault (if s.stream.length = 0 then .awaitingCommand else .awaitingRest) := by
  simp only [step, State.fetch, hs, h, Bool.false_eq_true, if_false]

/-- A step that holds says why: the core is faulted, or its delivered bytes are no whole command. -/
theorem step_fault_cases {s : State} {r : Fault} (h : step s = .fault r) :
    (s.flt = true ∧ r = .coreFaulted) ∨
      (s.flt = false ∧ decode s.stream = .incomplete ∧
        r = if s.stream.length = 0 then .awaitingCommand else .awaitingRest) := by
  cases hs : s.flt with
  | true => exact .inl ⟨rfl, by simpa [step_of_flt hs] using h.symm⟩
  | false =>
    refine .inr ⟨rfl, ?_⟩
    cases hd : decode s.stream with
    | command i rest =>
      obtain ⟨hi, hbs⟩ := encode_of_decode hd
      obtain ⟨t, ht⟩ := exec_next i { s with stream := rest }
      simp [step_encode hs hi hbs, ht] at h
    | illegalOpcode hdr => simp [step_illegalOpcode hs hd] at h
    | reservedField hdr => simp [step_reservedField hs hd] at h
    | incomplete => exact ⟨rfl, by simpa [step_of_incomplete hs hd] using h.symm⟩

/-! ## Part of a command (R34, R100) -/

/-- A command's own header is no header at fault: the decoder goes on to its operands (R51, R53). -/
theorem decode_header_not_fault (i : Instr) (rest : List Byte) (hdr : Word) :
    decode (bytes32 i.header ++ rest) ≠ .illegalOpcode hdr ∧ decode (bytes32 i.header ++ rest) ≠ .reservedField hdr := by
  rw [Instr.header, decode_mkHeader (engineBit_of_not_takesEngine i)]
  obtain hd | ⟨j, rest', hd, -⟩ := decodeOperands_cases i.opcode (EngineId.ofBit i.engineBit) rest
  · simp [hd]
  · simp [hd]

/-- Part of an encoding, its last byte missing, is neither a whole command nor a header at fault (R34, R100). -/
theorem decode_of_append_eq_encode {bs missing : List Byte} {i : Instr} (hi : i.wf = true) (hm : missing ≠ [])
    (h : bs ++ missing = encode i) : decode bs = .incomplete := by
  obtain hd | ⟨j, rest, -, hj, rfl⟩ | ⟨hdr, rest, hd, rfl⟩ := decode_cases bs
  · exact hd
  · have hij : Decoded.command j (rest ++ missing) = .command i [] := by
      rw [← decode_encode hj, ← decode_encode hi, ← List.append_assoc, h, List.append_nil]
    simp [hm] at hij
  · rw [encode, List.append_assoc] at h
    have hword := congrArg readWord h
    rw [readWord_bytes32, readWord_bytes32] at hword
    obtain rfl : hdr = i.header := congrArg Prod.fst (Option.some.inj hword)
    obtain ⟨hop, hr⟩ := decode_header_not_fault i rest i.header
    exact (hd.elim hop hr).elim

/-- Settles O9: the bytes delivered decode as incomplete, so there is no step, and settling takes none. -/
theorem partialCommandHolds : Obligations.PartialCommandHolds := by
  intro s i missing hs hi hm h
  have hstep := step_of_incomplete hs (decode_of_append_eq_encode hi hm h)
  have hsettle : s.settle = s := settle_of_step_fault hstep
  exact ⟨⟨_, hstep⟩, hsettle, fun a => congrArg (State.readPort · a) hsettle⟩

/-! ## Reset (R94) -/

/-- Settles O15: reset leaves one state, whatever the state before it, and with no byte delivered that state waits. -/
theorem resetFromAnyState : Obligations.ResetFromAnyState := fun _ =>
  ⟨fun e => by cases e <;> rfl, rfl, rfl, rfl, rfl, rfl, rfl, Vector.toList_replicate, rfl, rfl,
    step_of_incomplete rfl rfl⟩

end Sys2Proof.Proofs
end

section
/-! PROOF. What cannot be observed (R95): two engines, and then two states, of one meaning stay so under each operation,
each command and each step, they read alike, and they hold alike; statement O53. -/

namespace Sys2Proof.Proofs

open Sys2Proof.Machine

/-! ## Engines of one meaning (R20, R69) -/

theorem sameMeaning_reset (g g' : Engine) : g.reset.SameMeaning g'.reset :=
  ⟨rfl, fun _ => rfl, fun _ => rfl, fun _ => rfl, fun _ => rfl⟩

/-- A finalized engine keeps nothing but its lifecycle state that a command reads (R69). -/
theorem sameMeaning_finalize (g g' : Engine) : g.finalize.SameMeaning g'.finalize :=
  ⟨rfl, nofun, nofun, nofun, nofun⟩

section
variable {g g' : Engine} (h : g.SameMeaning g') (hst : g.st = .accum)
include h hst

theorem pending_eq_of_sameMeaning : g.pending = g'.pending := by
  rw [Engine.pending, Engine.pending, ← h.occ hst, h.buf hst]

theorem lengthOverflow_eq_of_sameMeaning (n : Nat) : g.lengthOverflow n = g'.lengthOverflow n := by
  rw [Engine.lengthOverflow, h.len hst, Engine.lengthOverflow]

/-- Absorb reads only what the meaning fixes, and leaves it fixed (R66, R67). -/
theorem sameMeaning_absorb (hocc : g.occ.toNat ≤ 63) (data : List Byte) :
    (g.absorb data).SameMeaning (g'.absorb data) := by
  obtain ⟨hh, ho, hp, -, -⟩ := Engine.absorb_spec data hocc
  obtain ⟨hh', ho', hp', -, -⟩ := Engine.absorb_spec (g := g') data (h.occ hst ▸ hocc)
  rw [← pending_eq_of_sameMeaning h hst] at hh' ho' hp'
  have hoccs : (g.absorb data).occ = (g'.absorb data).occ := BitVec.eq_of_toNat_eq (ho.trans ho'.symm)
  refine ⟨?_, fun _ => ?_, fun _ => hoccs, fun _ => ?_, fun _ => ?_⟩
  · rw [Engine.absorb_st, Engine.absorb_st, h.st]
  · rw [hh, hh', h.h hst]
  · rw [Engine.absorb_len, Engine.absorb_len, h.len hst]
  · rw [← hp'] at hp
    rwa [Engine.pending, Engine.pending, ← hoccs] at hp

theorem digest_eq_of_sameMeaning (hocc : g.occ.toNat ≤ 63) : g.digest = g'.digest := by
  rw [Engine.digest, Engine.digest, (Engine.finalize_spec hocc).1, (Engine.finalize_spec (h.occ hst ▸ hocc)).1,
    h.h hst, h.occ hst, h.len hst, pending_eq_of_sameMeaning h hst]

end

/-! ## States of one meaning (R95) -/

section
variable {s s' : State} (h : s.SameMeaning s')
include h

theorem sameMeaning_setEngine (e : EngineId) {g g' : Engine} (hg : g.SameMeaning g') :
    (s.setEngine e g).SameMeaning (s'.setEngine e g') := by
  have hengines : ∀ e', ((s.setEngine e g).engine e').SameMeaning ((s'.setEngine e g').engine e') := by
    intro e'
    rw [engine_setEngine_eq_ite, engine_setEngine_eq_ite]
    split_ifs
    · exact hg
    · exact h.engines e'
  cases e <;> exact { h with engines := hengines }

theorem sameMeaning_with_stream (bs : List Byte) :
    State.SameMeaning { s with stream := bs } { s' with stream := bs } :=
  { h with engines := fun e => by simpa using h.engines e, stream := rfl }

theorem sameMeaning_with_dout {d d' : Vector Byte 32} (hd : d = d') :
    State.SameMeaning { s with dout := d } { s' with dout := d' } :=
  { h with engines := fun e => by simpa using h.engines e, dout := hd }

theorem sameMeaning_with_hs (b : Bool) : State.SameMeaning { s with hs := b } { s' with hs := b } :=
  { h with engines := fun e => by cases e; exacts [h.engines .e0, h.engines .e1], hs := rfl }

theorem sameMeaning_with_eqr (b : Bool) : State.SameMeaning { s with eqr := b } { s' with eqr := b } :=
  { h with engines := fun e => by simpa using h.engines e, eqr := rfl }

theorem sameMeaning_with_pads (p q : Block) :
    State.SameMeaning { s with ipad := p, opad := q, kv := true } { s' with ipad := p, opad := q, kv := true } :=
  { h with engines := fun e => by simpa using h.engines e, kv := rfl, ipad := fun _ => rfl, opad := fun _ => rfl }

theorem sameMeaning_complete (n : Nat) : (s.complete n).SameMeaning (s'.complete n) :=
  { h with
    engines := fun e => by simpa using h.engines e
    spos := congrArg (· + BitVec.ofNat 64 n) h.spos }

theorem sameMeaning_raiseFault (c : Cause) (hdr : Word) : (s.raiseFault c hdr).SameMeaning (s'.raiseFault c hdr) :=
  { h with engines := fun e => by simpa using h.engines e, flt := rfl, fcause := rfl, fhdr := rfl, stream := rfl }

/-- No read shows what the meaning leaves open (R29, R30). -/
theorem readPort_eq_of_sameMeaning (a : BitVec 8) : s.readPort a = s'.readPort a := by
  have he0 : s.e0.st = s'.e0.st := (h.engines .e0).st
  have he1 : s.e1.st = s'.e1.st := (h.engines .e1).st
  simp only [State.readPort, State.status, State.doutWord, he0, he1, h.kv, h.hs, h.eqr, h.flt, h.fcause, h.fhdr, h.spos,
    h.dout]

end

/-! ## Commands on states of one meaning (R12, R87) -/

/-- The checks of EABS and EFIN on the lifecycle state leave ACCUM (R73, R75). -/
theorem st_eq_accum {st : Lifecycle} (hu : st ≠ .uninit) (hf : st ≠ .final) : st = .accum := by
  cases st with
  | uninit => exact absurd rfl hu
  | accum => rfl
  | final => exact absurd rfl hf

section
variable {s s' : State} (hinv : s.Inv) (h : s.SameMeaning s')
include hinv h

/-- The checks of a command fail alike. -/
theorem firstFailing_eq_of_sameMeaning (i : Instr) :
    firstFailing (checksOf i s) = firstFailing (checksOf i s') := by
  cases i with
  | erst | hkey | hstart | hfin | eqCheck => simp only [checksOf, h.hs, h.kv]
  | efin e => simp only [checksOf, h.hs, (h.engines e).st]
  | eabs e data =>
    cases hst : (s.engine e).st with
    | uninit | final => simp [checksOf, h.hs, ← (h.engines e).st, hst, firstFailing]
    | accum =>
      have hover := lengthOverflow_eq_of_sameMeaning (h.engines e) hst data.length
      simp only [checksOf, h.hs, (h.engines e).st, hover]
  | hdata frag =>
    cases hhs : s.hs with
    | false => simp [checksOf, ← h.hs, hhs]
    | true =>
      obtain ⟨-, hst, -⟩ := hinv.session hhs
      have hover : s.e0.lengthOverflow frag.length = s'.e0.lengthOverflow frag.length :=
        lengthOverflow_eq_of_sameMeaning (h.engines .e0) hst frag.length
      simp only [checksOf, h.hs, hover]

/-- The effects of a command that passes its checks have one meaning. -/
theorem sameMeaning_effectOf {i : Instr} (hpass : ∀ p ∈ checksOf i s, p.1 = false) :
    (effectOf i s).SameMeaning (effectOf i s') := by
  cases i with
  | erst e => exact sameMeaning_setEngine h e (sameMeaning_reset _ _)
  | eabs e data =>
    obtain ⟨-, hu, hf, -⟩ : s.hs = false ∧ (s.engine e).st ≠ .uninit ∧ (s.engine e).st ≠ .final ∧
        (s.engine e).lengthOverflow data.length = false := by
      simpa [checksOf] using hpass
    have hst : (s.engine e).st = .accum := st_eq_accum hu hf
    exact sameMeaning_setEngine h e (sameMeaning_absorb (h.engines e) hst (hinv.engines e).occ_le data)
  | efin e =>
    obtain ⟨-, hu, hf⟩ : s.hs = false ∧ (s.engine e).st ≠ .uninit ∧ (s.engine e).st ≠ .final := by
      simpa [checksOf] using hpass
    have hst : (s.engine e).st = .accum := st_eq_accum hu hf
    have hdigest := digest_eq_of_sameMeaning (h.engines e) hst (hinv.engines e).occ_le
    exact sameMeaning_with_dout (sameMeaning_setEngine h e (sameMeaning_finalize _ _)) (congrArg (byteVec 32) hdigest)
  | hkey key => exact sameMeaning_with_pads h _ _
  | hstart =>
    have hkv : s.kv = true := by simpa [checksOf] using hpass
    have hblock : (s.e0.reset.absorb s.ipad.toList).SameMeaning (s'.e0.reset.absorb s'.ipad.toList) := by
      rw [← h.ipad hkv]
      exact sameMeaning_absorb (sameMeaning_reset s.e0 s'.e0) rfl (by simp) s.ipad.toList
    exact sameMeaning_with_hs (sameMeaning_setEngine h .e0 hblock) true
  | hdata frag =>
    obtain ⟨hhs, -⟩ : s.hs = true ∧ s.e0.lengthOverflow frag.length = false := by simpa [checksOf] using hpass
    obtain ⟨-, hst, -⟩ := hinv.session hhs
    exact sameMeaning_setEngine h .e0 (sameMeaning_absorb (h.engines .e0) hst (hinv.engines .e0).occ_le frag)
  | hfin =>
    have hhs : s.hs = true := by simpa [checksOf] using hpass
    obtain ⟨hkv, hst, -⟩ := hinv.session hhs
    have hinner : s.e0.digest = s'.e0.digest :=
      digest_eq_of_sameMeaning (h.engines .e0) hst (hinv.engines .e0).occ_le
    have houter : (hfinOuter s).digest = (hfinOuter s').digest := by
      rw [hfinOuter_digest, hfinOuter_digest, hinner, h.opad hkv]
    have he0 := sameMeaning_setEngine h .e0 (sameMeaning_finalize s.e0 s'.e0)
    have he1 := sameMeaning_setEngine he0 .e1 (sameMeaning_finalize (hfinOuter s) (hfinOuter s'))
    exact sameMeaning_with_hs (sameMeaning_with_dout he1 (congrArg (byteVec 32) houter)) false
  | eqCheck a b => exact sameMeaning_with_eqr h _

/-- A command executed from either state has next states of one meaning. -/
theorem exec_sameMeaning {i : Instr} {t : State} (ht : exec i s = .next t) :
    ∃ t', exec i s' = .next t' ∧ t.SameMeaning t' := by
  have hfirst := firstFailing_eq_of_sameMeaning hinv h i
  obtain ⟨hpass, rfl⟩ | ⟨c, hc, rfl⟩ := exec_cases ht
  · refine ⟨completed i s', exec_completed ?_, sameMeaning_complete (sameMeaning_effectOf hinv h hpass) i.size⟩
    rw [← hfirst, firstFailing_eq_none.mpr hpass]
  · exact ⟨s'.raiseFault c i.header, exec_afterFault c (hfirst ▸ hc), sameMeaning_raiseFault h c i.header⟩

end

/-! ## Steps of states of one meaning (R95) -/

/-- Reading a command's bytes from the stream of an unfaulted core keeps the invariant. -/
theorem inv_with_stream {s : State} (hinv : s.Inv) (hs : s.flt = false) (bs : List Byte) :
    State.Inv { s with stream := bs } :=
  { hinv with
    engines := fun e => by simpa using hinv.engines e
    faulted := fun hf => by simp [hs] at hf }

section
variable {s s' : State} (h : s.SameMeaning s')
include h

/-- A step of one state is matched by a step of the other. -/
theorem step_sameMeaning (hinv : s.Inv) {t : State} (ht : step s = .next t) :
    ∃ t', step s' = .next t' ∧ t.SameMeaning t' := by
  obtain ⟨hs, ⟨i, rest, hd, he⟩ | ⟨hdr, hd, rfl⟩ | ⟨hdr, hd, rfl⟩⟩ := step_cases ht
  · obtain ⟨hi, hbs⟩ := encode_of_decode hd
    rw [step_encode (h.flt ▸ hs) hi (h.stream ▸ hbs)]
    exact exec_sameMeaning (inv_with_stream hinv hs rest) (sameMeaning_with_stream h rest) he
  · exact ⟨_, step_illegalOpcode (h.flt ▸ hs) (h.stream ▸ hd), sameMeaning_raiseFault h .illegalOpcode hdr⟩
  · exact ⟨_, step_reservedField (h.flt ▸ hs) (h.stream ▸ hd), sameMeaning_raiseFault h .reservedField hdr⟩

/-- A hold is named after the fault flag and the delivered bytes, which the two states share. -/
theorem step_fault_of_sameMeaning {r : Fault} (hr : step s = .fault r) : step s' = .fault r := by
  obtain ⟨hs, rfl⟩ | ⟨hs, hd, rfl⟩ := step_fault_cases hr
  · exact step_of_flt (h.flt ▸ hs)
  · rw [h.stream] at hd ⊢
    exact step_of_incomplete (h.flt ▸ hs) hd

end

/-- Settles O53: the three clauses are the three rules for states of one meaning: reads, steps and holds. -/
theorem unspecifiedValuesAreUnobservable : Obligations.UnspecifiedValuesAreUnobservable := fun _ _ hinv h =>
  ⟨readPort_eq_of_sameMeaning h, fun _ => step_sameMeaning h hinv, fun _ => step_fault_of_sameMeaning h⟩

end Sys2Proof.Proofs
end

section
/-! PROOF. The round trip of the encoding (R46, R47, R49, R53) and the written words: statements O2, O4 and O5. -/

namespace Sys2Proof.Proofs

/-- Settles O4: the header word reads back as the opcode and the engine, each payload as itself (`decode_encode`). -/
theorem decodeReadsEveryEncodedCommand : Obligations.DecodeReadsEveryEncodedCommand :=
  fun _ rest h => decode_encode h rest

/-- Settles O5: of all the decoder can answer, a command stands only behind its own encoding (`decode_cases`). -/
theorem decodedBytesAreTheEncoding : Obligations.DecodedBytesAreTheEncoding :=
  fun _ _ _ => encode_of_decode

/-- Settles O2: each written sequence is its command's encoding, and reads back. -/
theorem writtenWordsDecode : Obligations.WrittenWordsDecode :=
  ⟨decode_encode (i := .erst .e1) rfl [], decode_encode (i := .eabs .e0 [0x61, 0x62, 0x63]) rfl [],
    decode_encode (i := .efin .e0) rfl [0xff], decode_encode (i := .hkey [0x6b]) rfl [],
    decode_encode (i := .eqCheck [0x00, 0xff] [0x00, 0xfe]) rfl []⟩

end Sys2Proof.Proofs
end

section
/-! PROOF. One step and the stream (R17, R34, R41, R49, R89): what a command does with the bytes after it, and
statements O7, O8, O10, O11 and O47. -/

namespace Sys2Proof.Proofs

open Sys2Proof.Machine

/-! ## The two outcomes of a command (R17, R92) -/

/-- Every command completes or takes the fault entry under its own header; the checks alone decide which. -/
theorem exec_completed_or_afterFault (i : Instr) (s : State) :
    (∀ bs, exec i { s with stream := bs } = .next { completed i s with stream := bs }) ∨
      ∃ c : Cause, ∀ bs, exec i { s with stream := bs } = .next (s.afterFault c.code i.header) := by
  cases hc : firstFailing (checksOf i s) with
  | none => exact .inl fun bs => completed_stream i s bs ▸ exec_completed (by rw [checksOf_stream, hc])
  | some c => exact .inr ⟨c, fun bs => exec_afterFault c (by rw [checksOf_stream, hc])⟩

/-- A command has one next state. -/
theorem exec_unique {i : Instr} {s t u : State} (ht : exec i s = .next t) (hu : exec i s = .next u) : t = u :=
  Host.Outcome.next.inj (ht.symm.trans hu)

theorem completed_spos (i : Instr) (s : State) : (completed i s).spos = s.spos + BitVec.ofNat 64 i.size := by
  obtain ⟨-, -, -, hspos, -⟩ := effectOf_frame i s
  rw [completed, State.complete_spos, hspos]

/-- Settles O47: a completed command leaves the flag as it was, and the fault entry leaves SPOS. -/
theorem everyCommandHasANextState : Obligations.EveryCommandHasANextState := by
  intro i s hs
  obtain h | ⟨c, h⟩ := exec_completed_or_afterFault i s
  · exact ⟨_, h s.stream, .inr ⟨(completed_flt i s).trans hs, completed_spos i s⟩⟩
  · exact ⟨_, h s.stream, .inl ⟨rfl, rfl⟩⟩

/-! ## The step and the bytes after its command (R17, R34, R49) -/

/-- Settles O7: the bytes that decode to a command are its encoding. -/
theorem stepRunsDecodedCommand : Obligations.StepRunsDecodedCommand := by
  intro s i rest hs hd
  obtain ⟨hi, hstream⟩ := encode_of_decode hd
  exact step_encode hs hi hstream

/-- The size rule R49 for every command. -/
theorem encode_length (i : Instr) : (encode i).length = i.size := by
  cases i with
  | erst e => exact Laws.SizeLaw.erst e
  | eabs e data => exact Laws.SizeLaw.eabs e data
  | efin e => exact Laws.SizeLaw.efin e
  | hkey key => exact Laws.SizeLaw.hkey key
  | hstart => exact Laws.SizeLaw.hstart
  | hdata frag => exact Laws.SizeLaw.hdata frag
  | hfin => exact Laws.SizeLaw.hfin
  | eqCheck a b => exact Laws.SizeLaw.eqCheck a b

/-- Settles O8: the command at the front completes with the bytes after it left, or its fault discards them. -/
theorem streamPositionAdvancesBySize : Obligations.StreamPositionAdvancesBySize := by
  intro s i rest hs hi hstream
  rw [step_encode hs hi hstream, encode_length]
  obtain h | ⟨c, h⟩ := exec_completed_or_afterFault i s
  · have hflt : (completed i s).flt = false := (completed_flt i s).trans hs
    exact ⟨_, h rest, fun _ => ⟨completed_spos i s, rfl⟩, fun ht => by simp [hflt] at ht⟩
  · exact ⟨_, h rest, nofun, fun _ => ⟨rfl, rfl⟩⟩

/-- All that a step can do with the stream: read one command's encoding or one header at fault from its front, and leave
the bytes after it, or none of them. -/
theorem step_stream {s t : State} (h : step s = .next t) :
    ∃ bs rest, s.stream = bs ++ rest ∧ 4 ≤ bs.length ∧ (t.stream = rest ∨ t.stream = []) := by
  obtain ⟨-, ⟨i, rest, hd, he⟩ | ⟨hdr, hd, rfl⟩ | ⟨hdr, hd, rfl⟩⟩ := step_cases h
  · obtain ⟨-, hstream⟩ := encode_of_decode hd
    refine ⟨encode i, rest, hstream, ?_, ?_⟩
    · rw [Laws.SizeLaw.encode_length_sum]; exact Nat.le_add_right 4 _
    · obtain ⟨-, rfl⟩ | ⟨c, -, rfl⟩ := exec_cases he
      · obtain ⟨-, -, -, -, hrest⟩ := effectOf_frame i { s with stream := rest }
        exact .inl hrest
      · exact .inr rfl
  · obtain ⟨rest, hstream⟩ := bytes32_of_decode (.inl hd)
    exact ⟨_, rest, hstream, (bytes32_length hdr).ge, .inr rfl⟩
  · obtain ⟨rest, hstream⟩ := bytes32_of_decode (.inr hd)
    exact ⟨_, rest, hstream, (bytes32_length hdr).ge, .inr rfl⟩

/-- Settles O11: what is read is a command's encoding or a header word, four bytes at least. -/
theorem stepConsumesStream : Obligations.StepConsumesStream := by
  intro s t h
  obtain ⟨bs, rest, hstream, hbs, hrest | hnil⟩ := step_stream h
  · rw [hstream, hrest, List.length_append]; omega
  · rw [hstream, hnil, List.length_append, List.length_nil]; omega

/-! ## Deliveries (R34, R41, R89) -/

/-- The header word alone decides whether the decoder names a fault, and which (R51, R53). -/
theorem decode_bytes32_cases (hdr : Word) :
    (∀ rest, decode (bytes32 hdr ++ rest) = .illegalOpcode hdr) ∨
      (∀ rest, decode (bytes32 hdr ++ rest) = .reservedField hdr) ∨
      ∀ rest hdr', decode (bytes32 hdr ++ rest) ≠ .illegalOpcode hdr' ∧
        decode (bytes32 hdr ++ rest) ≠ .reservedField hdr' := by
  cases hop : Opcode.ofByte (opcField hdr) with
  | none => exact .inl (decode_illegalOpcode hop)
  | some op =>
    cases hr : reservedSet op hdr with
    | true => exact .inr (.inl (decode_reservedField hop hr))
    | false =>
      refine .inr (.inr fun rest hdr' => ?_)
      obtain ⟨-, -, he⟩ := (reservedSet_eq_false_iff op hdr).mp hr
      rw [mkHeader_of_fields (Opcode.code_of_ofByte hop).symm hr, decode_mkHeader he]
      obtain hd | ⟨i, rest', hd, -⟩ := decodeOperands_cases op (EngineId.ofBit (eField hdr)) rest
      · simp [hd]
      · simp [hd]

/-- A header fault is found whatever bytes come later. -/
theorem decode_fault_append {bs : List Byte} {hdr : Word} (later : List Byte) :
    (decode bs = .illegalOpcode hdr → decode (bs ++ later) = .illegalOpcode hdr) ∧
      (decode bs = .reservedField hdr → decode (bs ++ later) = .reservedField hdr) := by
  refine ⟨fun h => ?_, fun h => ?_⟩
  · obtain ⟨rest, rfl⟩ := bytes32_of_decode (.inl h)
    rw [List.append_assoc]
    obtain hd | hd | hd := decode_bytes32_cases hdr
    · exact hd _
    · simp [hd] at h
    · exact absurd h (hd rest hdr).1
  · obtain ⟨rest, rfl⟩ := bytes32_of_decode (.inr h)
    rw [List.append_assoc]
    obtain hd | hd | hd := decode_bytes32_cases hdr
    · simp [hd] at h
    · exact hd _
    · exact absurd h (hd rest hdr).2

theorem deliver_of_unfaulted {s : State} (h : s.flt = false) (bs : List Byte) :
    s.deliver bs = { s with stream := s.stream ++ bs } := by
  simp [State.deliver, h]

/-- A command carries bytes that are delivered later along, or discards them with the rest (R89). -/
theorem exec_append_stream {i : Instr} {s t : State} {rest : List Byte} (hs : s.flt = false)
    (h : exec i { s with stream := rest } = .next t) (later : List Byte) :
    exec i { s with stream := rest ++ later } = .next (t.deliver later) := by
  obtain h' | ⟨c, h'⟩ := exec_completed_or_afterFault i s
  · obtain rfl := exec_unique (h' rest) h
    have hflt : (completed i s).flt = false := (completed_flt i s).trans hs
    have hd := deliver_of_unfaulted (s := { completed i s with stream := rest }) hflt later
    exact (h' (rest ++ later)).trans (congrArg Host.Outcome.next hd.symm)
  · obtain rfl := exec_unique (h' rest) h
    rw [h', deliver_of_flt rfl]

/-- Settles O10: the bytes delivered first hold the whole command or the header at fault, so later ones do not change
what is read; a completed command leaves them for the next step and a fault discards them either way. -/
theorem stepCommutesWithDelivery : Obligations.StepCommutesWithDelivery := by
  intro s t later h
  obtain ⟨hs, ⟨i, rest, hd, he⟩ | ⟨hdr, hd, rfl⟩ | ⟨hdr, hd, rfl⟩⟩ := step_cases h
  · obtain ⟨hi, hstream⟩ := encode_of_decode hd
    rw [deliver_of_unfaulted hs, hstream, List.append_assoc,
      step_encode (s := { s with stream := encode i ++ (rest ++ later) }) hs hi rfl]
    exact exec_append_stream hs he later
  · rw [deliver_of_unfaulted hs, deliver_of_flt rfl,
      step_illegalOpcode (s := { s with stream := s.stream ++ later }) hs ((decode_fault_append later).1 hd)]
    rfl
  · rw [deliver_of_unfaulted hs, deliver_of_flt rfl,
      step_reservedField (s := { s with stream := s.stream ++ later }) hs ((decode_fault_append later).2 hd)]
    rfl

end Sys2Proof.Proofs
end

section
/-! PROOF. The core at rest and what reads answer (R32, R42, R89, R98): settling takes every step there is, and
statements O12, O13, O14 and O18. -/

namespace Sys2Proof.Proofs

open Sys2Proof.Machine

/-! ## The core at rest (R42, R98) -/

/-- A step has a next state or holds: none is refused (R92). -/
theorem step_next_or_fault (s : State) : (∃ t, step s = .next t) ∨ ∃ r, step s = .fault r := by
  rw [step]
  cases s.fetch with
  | command i t => exact .inl (exec_next i t)
  | headerFault t => exact .inl ⟨t, rfl⟩
  | hold r => exact .inr ⟨r, rfl⟩

/-- As many steps as there are bytes on the stream are enough to come to rest: each reads four of them. -/
theorem step_settleWithin {n : Nat} {s : State} (h : s.stream.length ≤ n) :
    ∃ r, step (settleWithin n s) = .fault r := by
  induction n generalizing s with
  | zero =>
    refine (step_next_or_fault s).resolve_left fun ⟨t, ht⟩ => ?_
    have hlen := stepConsumesStream s t ht
    omega
  | succ n ih =>
    obtain ⟨t, ht⟩ | ⟨r, hr⟩ := step_next_or_fault s
    · have hlen := stepConsumesStream s t ht
      simpa only [settleWithin, ht] using ih (s := t) (by omega)
    · exact ⟨r, by simp only [settleWithin, hr]⟩

theorem step_settle (s : State) : ∃ r, step s.settle = .fault r := step_settleWithin le_rfl

/-- The reason of a hold: a fault, a clean end, or part of a command. -/
theorem reason_of_step_fault {s : State} {r : Fault} (h : step s = .fault r) :
    (r = .coreFaulted ↔ s.flt = true) ∧ (r = .awaitingCommand ↔ s.cleanEnd = true) := by
  obtain ⟨hs, rfl⟩ | ⟨hs, -, rfl⟩ := step_fault_cases h
  · simp [State.cleanEnd, hs]
  · cases hstream : s.stream with
    | nil => simp [State.cleanEnd, hs, hstream]
    | cons b bs => simp [State.cleanEnd, hs, hstream]

/-- Settles O12: the stream's length bounds the steps, and a hold says its reason. -/
theorem settledCoreHasNoStep : Obligations.SettledCoreHasNoStep := fun s =>
  (step_settle s).imp fun _ hr => ⟨hr, reason_of_step_fault hr⟩

/-! ## Reads of a core at rest (R42) -/

/-- From a state that holds, the one number of steps is none. -/
theorem steps_of_step_fault {s t : State} {r : Fault} {k : Nat} (h : step s = .fault r) (ht : steps k s = some t) :
    t = s := by
  cases k with
  | zero => exact (Option.some.inj ht).symm
  | succ k => simp [steps, h] at ht

theorem deliver_nil (s : State) : s.deliver [] = s := by
  simp [State.deliver]

/-- Settles O13: with nothing delivered the settled core takes no further step, so its state alone can answer. -/
theorem readReturnsSettledValue : Obligations.ReadReturnsSettledValue := by
  intro s a v
  rw [ReadMayReturn, deliver_nil]
  refine ⟨fun ⟨k, t, ht, hv⟩ => ?_, fun hv => ⟨0, s.settle, rfl, hv⟩⟩
  obtain ⟨r, hr⟩ := step_settle s
  rw [hv, steps_of_step_fault hr ht, State.hostRead]

/-! ## Reads of a faulted core (R42, R89) -/

/-- A faulted core answers every later read from the state it is in, whatever is delivered meanwhile. -/
theorem value_of_readsMayReturn {s : State} {rs : List HostRead} (hs : s.flt = true) (h : ReadsMayReturn s rs) :
    ∀ q ∈ rs, q.value = s.readPort q.addr := by
  induction rs with
  | nil => exact nofun
  | cons r rs ih =>
    obtain ⟨k, t, ht, hv, hrs⟩ := h
    rw [deliver_of_flt hs, settle_of_step_fault (step_of_flt hs), deliver_of_flt hs] at ht
    obtain rfl := steps_of_step_fault (step_of_flt hs) ht
    exact List.forall_mem_cons.mpr ⟨hv, ih hrs⟩

/-- Settles O14: bit 7 of STATUS is FLT, so the state that answered is faulted, and it answers every later read. -/
theorem faultShownStaysShown : Obligations.FaultShownStaysShown := by
  intro s r rs h haddr hbit q hq
  obtain ⟨k, t, -, hv, hrs⟩ := h
  rw [haddr] at hv
  obtain ⟨-, -, -, hstatus⟩ := status_flags t
  have hflt : t.flt = true := by rw [← hstatus, ← hbit, hv]; rfl
  have hval := value_of_readsMayReturn hflt hrs
  refine ⟨fun hqa => ?_, fun q' hq' hqa => ?_⟩
  · rw [hval q hq, hqa, hv]
  · rw [hval q hq, hval q' hq', hqa]

/-! ## What reads show (R32) -/

/-- Settles O18: each word of the map is made of the fields the states agree in. -/
theorem readsHideEnginesAndPads : Obligations.ReadsHideEnginesAndPads := by
  intro s t a hst hkv hhs heqr hdout hflt hfcause hfhdr hspos
  have he0 : s.e0.st = t.e0.st := hst .e0
  have he1 : s.e1.st = t.e1.st := hst .e1
  have hstatus : s.status = t.status := by simp only [State.status, he0, he1, hkv, hhs, heqr, hflt]
  have hdoutWord (k : Nat) : s.doutWord k = t.doutWord k := by simp only [State.doutWord, hdout]
  simp only [State.readPort, hstatus, hdoutWord, hfcause, hfhdr, hspos]

end Sys2Proof.Proofs
end

section
/-! PROOF. What commands write and do not write (R14, R18, R86), the digest of a message (R70, R71), and statements O24,
O33, O36, O45, O46 and O52. -/

namespace Sys2Proof.Proofs

open Sys2Proof.Machine

/-! ## Engines (R18) -/

/-- The effect of a command leaves the engines it does not act on alone. -/
theorem effectOf_engine_of_not_actsOn {i : Instr} {e : EngineId} (s : State) (h : actsOn i e = false) :
    (effectOf i s).engine e = s.engine e := by
  cases i with
  | erst e' | eabs e' _ | efin e' =>
    have hne : e ≠ e' := of_decide_eq_false h
    simp only [effectOf, State.engine_with_dout, State.engine_setEngine_ne s _ hne]
  | hkey | eqCheck => simp [effectOf]
  | hstart | hdata =>
    cases e with
    | e0 => simp [actsOn] at h
    | e1 => rfl
  | hfin => simp [actsOn] at h

/-- Settles O45: the fault entry leaves both engines alone, and an effect those that its command does not act on. -/
theorem otherEngineUntouched : Obligations.OtherEngineUntouched := by
  intro i s t e h he
  obtain ⟨-, rfl⟩ | ⟨c, -, rfl⟩ := exec_cases h
  · rw [State.complete_engine, effectOf_engine_of_not_actsOn s he]
  · exact State.raiseFault_engine s c i.header e

/-! ## Results (R14, R24 to R28) -/

theorem effectOf_pads {i : Instr} (s : State) (h : ∀ key, i ≠ .hkey key) :
    (effectOf i s).ipad = s.ipad ∧ (effectOf i s).opad = s.opad ∧ (effectOf i s).kv = s.kv := by
  cases i with
  | hkey key => exact absurd rfl (h key)
  | erst | eabs | efin | hstart | hdata | hfin | eqCheck => simp [effectOf]

/-- KV is never cleared (R24). -/
theorem effectOf_kv (i : Instr) {s : State} (h : s.kv = true) : (effectOf i s).kv = true := by
  cases i with
  | hkey key => rfl
  | erst | eabs | efin | hstart | hdata | hfin | eqCheck => simpa [effectOf] using h

theorem effectOf_hs {i : Instr} (s : State) (h : i ≠ .hstart) (h' : i ≠ .hfin) : (effectOf i s).hs = s.hs := by
  cases i with
  | hstart => exact absurd rfl h
  | hfin => exact absurd rfl h'
  | erst | eabs | efin | hkey | hdata | eqCheck => simp [effectOf]

theorem effectOf_eqr {i : Instr} (s : State) (h : ∀ a b, i ≠ .eqCheck a b) : (effectOf i s).eqr = s.eqr := by
  cases i with
  | eqCheck a b => exact absurd rfl (h a b)
  | erst | eabs | efin | hkey | hstart | hdata | hfin => simp [effectOf]

theorem effectOf_dout {i : Instr} (s : State) (h : ∀ e, i ≠ .efin e) (h' : i ≠ .hfin) :
    (effectOf i s).dout = s.dout := by
  cases i with
  | efin e => exact absurd rfl (h e)
  | hfin => exact absurd rfl h'
  | erst | eabs | hkey | hstart | hdata | eqCheck => simp [effectOf]

/-- Settles O46: the fault entry writes the fault fields alone, and each result has its own lemma on effects. -/
theorem resultsWrittenOnlyByTheirCommands : Obligations.ResultsWrittenOnlyByTheirCommands := by
  intro i s t h
  obtain ⟨-, rfl⟩ | ⟨c, -, rfl⟩ := exec_cases h
  · obtain ⟨hflt, hfcause, hfhdr, -, -⟩ := effectOf_frame i s
    exact ⟨effectOf_pads s, effectOf_kv i, effectOf_hs s, effectOf_eqr s, effectOf_dout s,
      fun hf => ⟨hflt ▸ hf, hfcause, hfhdr⟩, hflt.trans⟩
  · exact ⟨fun _ => ⟨rfl, rfl, rfl⟩, id, fun _ _ => rfl, fun _ => rfl, fun _ _ => rfl, nofun, fun _ => rfl⟩

/-! ## Faults do not depend on data (R86) -/

/-- Two commands with the same checks in a state and the same header word fault alike there, and two of one size leave
the same SPOS. -/
theorem fault_fields_eq_of_checks_eq {i j : Instr} {s t u : State} (hc : checksOf i s = checksOf j s)
    (hh : i.header = j.header) (ht : exec i s = .next t) (hu : exec j s = .next u) :
    t.flt = u.flt ∧ t.fcause = u.fcause ∧ t.fhdr = u.fhdr ∧ (i.size = j.size → t.spos = u.spos) := by
  have hfirst : firstFailing (checksOf j s) = firstFailing (checksOf i s) := by rw [hc]
  cases hf : firstFailing (checksOf i s) with
  | none =>
    obtain rfl := exec_unique (exec_completed hf) ht
    obtain rfl := exec_unique (exec_completed (hfirst.trans hf)) hu
    obtain ⟨hflt, hfcause, hfhdr, -, -⟩ := effectOf_frame i s
    obtain ⟨hflt', hfcause', hfhdr', -, -⟩ := effectOf_frame j s
    exact ⟨hflt.trans hflt'.symm, hfcause.trans hfcause'.symm, hfhdr.trans hfhdr'.symm,
      fun hsize => by rw [completed_spos, completed_spos, hsize]⟩
  | some c =>
    obtain rfl := exec_unique (exec_afterFault c hf) ht
    obtain rfl := exec_unique (exec_afterFault c (hfirst.trans hf)) hu
    rw [hh]
    exact ⟨rfl, rfl, rfl, fun _ => rfl⟩

/-- Settles O24: a command's checks read its payload's length at most, and its header word nothing of it. -/
theorem faultsIgnoreData : Obligations.FaultsIgnoreData := by
  intro s e data data' key key' a b hs hlen
  refine ⟨fun t t' ht ht' => ?_, fun t t' ht ht' => ?_, fun t t' ht ht' => ?_, fun t ht => ?_⟩
  · obtain ⟨hflt, hfcause, hfhdr, hspos⟩ := fault_fields_eq_of_checks_eq
      (i := .eabs e data) (j := .eabs e data') (by simp only [checksOf, hlen]) rfl ht ht'
    exact ⟨hflt, hfcause, hfhdr, hspos (by simp only [Instr.size, hlen])⟩
  · obtain ⟨hflt, hfcause, hfhdr, hspos⟩ := fault_fields_eq_of_checks_eq
      (i := .hdata data) (j := .hdata data') (by simp only [checksOf, hlen]) rfl ht ht'
    exact ⟨hflt, hfcause, hfhdr, hspos (by simp only [Instr.size, hlen])⟩
  · obtain ⟨hflt, hfcause, hfhdr, -⟩ := fault_fields_eq_of_checks_eq (i := .hkey key) (j := .hkey key') rfl rfl ht ht'
    exact ⟨hflt, hfcause, hfhdr⟩
  · obtain rfl := exec_unique (exec_eqCheck s a b) ht
    exact hs

/-! ## Messages and digests (R22, R70, R71) -/

/-- Settles O33: the engine accumulates outside a session, so EFIN passes its checks (`accumulating_efin`). -/
theorem efinYieldsDigestOfMessage : Obligations.EfinYieldsDigestOfMessage := by
  intro s e m hs hst hm hl
  obtain ⟨hpass, hdout⟩ := accumulating_efin ⟨hs, hst, hm⟩ hl
  exact ⟨_, exec_completed (firstFailing_eq_none.mpr hpass), hdout⟩

/-- Settles O36: the commands complete with the digest in DOUT (an induction over the chunks, `completes_map`), and so
run from the stream in one step each. -/
theorem digestOfChunkedMessage : Obligations.DigestOfChunkedMessage := by
  intro s e chunks rest hflt hhs hchunks hl hstream
  obtain ⟨t, ht, hdout, hst⟩ := completes_digest e hhs hl
  have hwf : ∀ i ∈ (.erst e :: chunks.map (Instr.eabs e) ++ [.efin e]), i.wf = true := by
    simp only [List.cons_append, List.forall_mem_cons, List.forall_mem_append, List.forall_mem_map]
    exact ⟨rfl, hchunks, rfl, nofun⟩
  exact ⟨_, ht.steps (by simp) hflt hwf hstream, ht.flt.trans hflt, rfl, hdout, by simpa using hst⟩

/-- Settles O52: a reset engine stands for the empty message, and Absorb appends to it (`Engine.Represents.absorb`). -/
theorem enginesFollowTheirMessages : Obligations.EnginesFollowTheirMessages := by
  intro s e m data
  refine ⟨fun hs => ?_, fun hs hst hm hl => ?_, fun hkv => ?_, fun hs hm hl => ?_⟩
  · exact ⟨_, exec_erst e hs, (accumulating_erst e hs).msg⟩
  · obtain ⟨hpass, hacc⟩ := accumulating_eabs e m data s ⟨hs, hst, hm⟩ hl
    exact ⟨_, exec_completed (firstFailing_eq_none.mpr hpass), completed_flt _ s, hacc.msg⟩
  · exact ⟨_, exec_hstart hkv, (inSession_hstart hkv).msg⟩
  · exact ⟨_, exec_hdata hs (by rwa [hm.len]), rfl, hm.absorb data hl⟩

end Sys2Proof.Proofs
end

section
/-! PROOF. The invariant (R20 to R28, R69, R82, R86): it holds at reset, and each engine operation, each command, each
step and each interaction of the host keeps it; statements O48 to O51. -/

namespace Sys2Proof.Proofs

open Sys2Proof.Machine

/-! ## One engine between commands (R20, R21, R22, R69) -/

theorem ok_initial : Engine.initial.Ok := ⟨by decide, fun h => absurd rfl h, nofun, nofun⟩

/-- An accumulating engine that stands for a message within LMAX is as it must be between commands. -/
theorem ok_of_represents {g : Engine} {m : List Byte} (hst : g.st = .accum) (hm : g.Represents m)
    (hl : m.length ≤ Config.lmax) : g.Ok where
  occ_le := hm.occ_le
  len_le _ := hm.len.trans_le hl
  accum _ := ⟨m, hm⟩
  final hf := by simp [hst] at hf

theorem ok_reset (g : Engine) : g.reset.Ok := ok_of_represents rfl g.reset_represents (Nat.zero_le _)

/-- The check of R74 in terms of the message: it has room for the bytes to come. -/
theorem length_add_le_lmax {g : Engine} {m : List Byte} {n : Nat} (hm : g.Represents m)
    (hover : g.lengthOverflow n = false) : m.length + n ≤ Config.lmax := by
  simpa [Engine.lengthOverflow, hm.len] using hover

theorem ok_absorb {g : Engine} {data : List Byte} (h : g.Ok) (hst : g.st = .accum)
    (hover : g.lengthOverflow data.length = false) : (g.absorb data).Ok := by
  obtain ⟨m, hm⟩ := h.accum hst
  have hl : m.length + data.length ≤ Config.lmax := length_add_le_lmax hm hover
  exact ok_of_represents ((Engine.absorb_st g data).trans hst) (hm.absorb data hl) (by rwa [List.length_append])

/-- An engine that stands for a message within LMAX is finalized with its buffer empty and its counter kept (R69). -/
theorem ok_finalize {g : Engine} (h : g.Ok) (hst : g.st = .accum) : g.finalize.Ok := by
  obtain ⟨-, hocc, -, hlen⟩ := Engine.finalize_spec h.occ_le
  exact ⟨by simp [hocc], fun _ => hlen ▸ h.len_le (by simp [hst]), nofun, fun _ => hocc⟩

/-! ## The writes of the state's fields -/

section
variable {s : State} (h : s.Inv)
include h

theorem inv_raiseFault (c : Cause) (hdr : Word) : (s.raiseFault c hdr).Inv :=
  { h with
    engines := fun e => by simpa using h.engines e
    unfaulted := nofun
    faulted := fun _ => ⟨(cause_code_bounds c).1, (cause_code_bounds c).2, rfl⟩ }

theorem inv_complete (n : Nat) : (s.complete n).Inv :=
  { h with engines := fun e => by simpa using h.engines e }

theorem inv_with_dout (d : Vector Byte 32) : State.Inv { s with dout := d } :=
  { h with engines := fun e => by simpa using h.engines e }

theorem inv_with_eqr (b : Bool) : State.Inv { s with eqr := b } :=
  { h with engines := fun e => by simpa using h.engines e }

/-- Closing the session asks nothing of the state (R80). -/
theorem inv_with_hs_false : State.Inv { s with hs := false } :=
  { h with
    engines := fun e => by cases e; exacts [h.engines .e0, h.engines .e1]
    session := nofun }

/-- Outside a session an engine may be written as its own conditions allow. -/
theorem inv_setEngine (hs : s.hs = false) (e : EngineId) {g : Engine} (hg : g.Ok) : (s.setEngine e g).Inv := by
  have hengines : ∀ e', ((s.setEngine e g).engine e').Ok := by
    intro e'
    rw [engine_setEngine_eq_ite]
    split_ifs
    · exact hg
    · exact h.engines e'
  have hclosed : s.hs ≠ true := by simp [hs]
  cases e <;> exact { h with engines := hengines, session := fun hopen => absurd hopen hclosed }

/-- Outside a session both pads may be derived from another key (R24, R77). -/
theorem inv_with_pads (hs : s.hs = false) (key : List Byte) :
    State.Inv
      { s with ipad := padOf Config.ipadc (normKey key), opad := padOf Config.opadc (normKey key), kv := true } :=
  { h with
    engines := fun e => by simpa using h.engines e
    pads := fun _ => ⟨key, rfl, rfl⟩
    session := fun hopen => absurd hopen (by simp [hs]) }

/-- With a key held, E0 may be given IPAD and the fragments so far for the driver's session (R78, R79, R82). -/
theorem inv_with_inner (hkv : s.kv = true) {g : Engine} {m : List Byte} (hst : g.st = .accum)
    (hm : g.Represents (s.ipad.toList ++ m)) (hl : (s.ipad.toList ++ m).length ≤ Config.lmax) (b : Bool) :
    State.Inv { s with e0 := g, hs := b } :=
  { h with
    engines := fun e => by cases e; exacts [ok_of_represents hst hm hl, h.engines .e1]
    session := fun _ => ⟨hkv, hst, m, hm⟩ }

end

/-! ## Commands and steps -/

/-- What EABS has found when its checks pass (R73). -/
theorem eabs_of_checks_pass {e : EngineId} {data : List Byte} {s : State}
    (hpass : ∀ p ∈ checksOf (.eabs e data) s, p.1 = false) :
    s.hs = false ∧ (s.engine e).st = .accum ∧ (s.engine e).lengthOverflow data.length = false := by
  obtain ⟨hs, hu, hf, hover⟩ : s.hs = false ∧ (s.engine e).st ≠ .uninit ∧ (s.engine e).st ≠ .final ∧
      (s.engine e).lengthOverflow data.length = false := by
    simpa [checksOf] using hpass
  exact ⟨hs, st_eq_accum hu hf, hover⟩

/-- What EFIN has found when its checks pass (R75). -/
theorem efin_of_checks_pass {e : EngineId} {s : State} (hpass : ∀ p ∈ checksOf (.efin e) s, p.1 = false) :
    s.hs = false ∧ (s.engine e).st = .accum := by
  obtain ⟨hs, hu, hf⟩ : s.hs = false ∧ (s.engine e).st ≠ .uninit ∧ (s.engine e).st ≠ .final := by
    simpa [checksOf] using hpass
  exact ⟨hs, st_eq_accum hu hf⟩

/-- The effect of a command that passes its checks keeps the invariant. -/
theorem inv_effectOf {i : Instr} {s : State} (h : s.Inv) (hpass : ∀ p ∈ checksOf i s, p.1 = false) :
    (effectOf i s).Inv := by
  cases i with
  | erst e =>
    have hs : s.hs = false := by simpa [checksOf] using hpass
    exact inv_setEngine h hs e (ok_reset _)
  | eabs e data =>
    obtain ⟨hs, hst, hover⟩ := eabs_of_checks_pass hpass
    exact inv_setEngine h hs e (ok_absorb (h.engines e) hst hover)
  | efin e =>
    obtain ⟨hs, hst⟩ := efin_of_checks_pass hpass
    exact inv_with_dout (inv_setEngine h hs e (ok_finalize (h.engines e) hst)) _
  | hkey key =>
    have hs : s.hs = false := by simpa [checksOf] using hpass
    exact inv_with_pads h hs key
  | hstart =>
    have hkv : s.kv = true := by simpa [checksOf] using hpass
    have hm : (s.e0.reset.absorb s.ipad.toList).Represents (s.ipad.toList ++ []) := by
      rw [List.append_nil]
      exact (inSession_hstart hkv).msg
    exact inv_with_inner h hkv (Engine.absorb_st _ _) hm (by simp [Config.lmax]) true
  | hdata frag =>
    obtain ⟨hs, hover⟩ : s.hs = true ∧ s.e0.lengthOverflow frag.length = false := by simpa [checksOf] using hpass
    obtain ⟨hkv, hst, m, hm⟩ := h.session hs
    have hl := length_add_le_lmax hm hover
    have hm' := hm.absorb frag hl
    rw [← List.length_append, List.append_assoc] at hl
    rw [List.append_assoc] at hm'
    exact inv_with_inner h hkv ((Engine.absorb_st _ _).trans hst) hm' hl s.hs
  | hfin =>
    have hs : s.hs = true := by simpa [checksOf] using hpass
    obtain ⟨-, hst, -⟩ := h.session hs
    have houter : (hfinOuter s).Ok := by
      refine ok_of_represents (by simp [hfinOuter]) (hfinOuter_represents s) ?_
      rw [List.length_append, Vector.length_toList, Engine.digest_length]
      decide
    have he0 := inv_setEngine (inv_with_hs_false h) rfl .e0 (ok_finalize (h.engines .e0) hst)
    have he1 := inv_setEngine he0 rfl .e1 (ok_finalize houter (by simp [hfinOuter]))
    exact inv_with_dout he1 _
  | eqCheck a b => exact inv_with_eqr h _

/-- Every command keeps the invariant, whether it completes or faults. -/
theorem inv_exec {i : Instr} {s t : State} (h : s.Inv) (ht : exec i s = .next t) : t.Inv := by
  obtain ⟨hpass, rfl⟩ | ⟨c, -, rfl⟩ := exec_cases ht
  · exact inv_complete (inv_effectOf h hpass) i.size
  · exact inv_raiseFault h c i.header

/-- Settles O50: a step reads a command's bytes and executes it, or takes a header fault; each keeps the invariant. -/
theorem stepKeepsInvariant : Obligations.StepKeepsInvariant := by
  intro s t h ht
  obtain ⟨hs, ⟨i, rest, -, he⟩ | ⟨hdr, -, rfl⟩ | ⟨hdr, -, rfl⟩⟩ := step_cases ht
  · exact inv_exec (inv_with_stream h hs rest) he
  · exact inv_raiseFault h .illegalOpcode hdr
  · exact inv_raiseFault h .reservedField hdr

/-! ## Reset and the host (R94, R97) -/

/-- Settles O49: after reset both engines are UNINIT, and no key, session or fault is there to ask anything. -/
theorem resetMeetsInvariant : Obligations.ResetMeetsInvariant where
  engines e := by cases e; exacts [ok_initial, ok_initial]
  pads := nofun
  session := nofun
  unfaulted _ := ⟨rfl, rfl⟩
  faulted := nofun

theorem inv_deliver {s : State} (h : s.Inv) (bs : List Byte) : (s.deliver bs).Inv := by
  cases hs : s.flt with
  | true => rwa [deliver_of_flt hs]
  | false => rw [deliver_of_unfaulted hs]; exact inv_with_stream h hs _

theorem inv_settleWithin (n : Nat) {s : State} (h : s.Inv) : (settleWithin n s).Inv := by
  induction n generalizing s with
  | zero => exact h
  | succ n ih =>
    obtain ⟨t, ht⟩ | ⟨r, hr⟩ := step_next_or_fault s
    · simpa only [settleWithin, ht] using ih (stepKeepsInvariant s t h ht)
    · simpa only [settleWithin, hr] using h

/-- Settles O51: a delivery writes the stream, a read settles by steps, and reset starts again. -/
theorem hostActionsKeepInvariant : Obligations.HostActionsKeepInvariant := by
  intro s act h
  cases act with
  | deliver bs => exact inv_deliver h bs
  | read a => exact inv_settleWithin s.stream.length h
  | reset => exact resetMeetsInvariant

/-! ## The length counter (R21) -/

/-- An effect that resets no engine keeps or raises each length counter: the check of R74 shuts a wrap out. -/
theorem len_le_effectOf {i : Instr} {s : State} {e : EngineId} (hpass : ∀ p ∈ checksOf i s, p.1 = false)
    (herst : i ≠ .erst e) (hhstart : i ≠ .hstart) (hhfin : i ≠ .hfin) :
    (s.engine e).len.toNat ≤ ((effectOf i s).engine e).len.toNat := by
  cases hacts : actsOn i e with
  | false => rw [effectOf_engine_of_not_actsOn s hacts]
  | true =>
    cases i with
    | erst e' => exact absurd (congrArg Instr.erst (of_decide_eq_true hacts).symm) herst
    | eabs e' data =>
      obtain rfl : e = e' := of_decide_eq_true hacts
      obtain ⟨-, -, hover⟩ := eabs_of_checks_pass hpass
      have hl : (s.engine e).len.toNat + data.length ≤ 2 ^ 61 - 1 := not_lt.mp (of_decide_eq_false hover)
      rw [effectOf, State.engine_setEngine, absorb_len_toNat hl]
      exact Nat.le_add_right _ _
    | efin e' =>
      obtain rfl : e = e' := of_decide_eq_true hacts
      simp only [effectOf, State.engine_with_dout, State.engine_setEngine, Engine.finalize_len, le_refl]
    | hdata frag =>
      obtain rfl : e = .e0 := of_decide_eq_true hacts
      obtain ⟨-, hover⟩ : s.hs = true ∧ s.e0.lengthOverflow frag.length = false := by simpa [checksOf] using hpass
      have hl : s.e0.len.toNat + frag.length ≤ 2 ^ 61 - 1 := not_lt.mp (of_decide_eq_false hover)
      exact (Nat.le_add_right _ _).trans (absorb_len_toNat hl).ge
    | hstart => exact absurd rfl hhstart
    | hfin => exact absurd rfl hhfin
    | hkey | eqCheck => simp [actsOn] at hacts

/-- No command moves an engine back to UNINIT, faulting ones included (R19). -/
theorem exec_st_ne_uninit {i : Instr} {s t : State} {e : EngineId} (h : exec i s = .next t)
    (hst : (s.engine e).st ≠ .uninit) : (t.engine e).st ≠ .uninit := by
  obtain ⟨-, rfl⟩ | ⟨c, -, rfl⟩ := exec_cases h
  · rw [State.complete_engine, effectOf_engine_st]
    exact lifecycleAfter_ne_uninit i e hst
  · rwa [State.raiseFault_engine]

/-- Settles O48: an effect never lowers the counter, and the invariant, which the command keeps, bounds it. -/
theorem lengthGrowsUntilEngineReset : Obligations.LengthGrowsUntilEngineReset := by
  intro i s t e hinv h herst hhstart hhfin hst
  refine ⟨?_, ((inv_exec hinv h).engines e).len_le (exec_st_ne_uninit h hst)⟩
  obtain ⟨hpass, rfl⟩ | ⟨c, -, rfl⟩ := exec_cases h
  · rw [State.complete_engine]
    exact len_le_effectOf hpass herst hhstart hhfin
  · rw [State.raiseFault_engine]

end Sys2Proof.Proofs
end
